-- ==== Sys2Proof/Word.lean ====
section
/-! DEFINITION. The word types of QAQI (spec/00_scope.md R6): every value is unsigned, bit 0 is the least significant. -/

namespace Sys2Proof

/-- A `u16`: a command word, a 16-bit register or a 16-bit field of the frame (R6). -/
abbrev Word := BitVec 16

/-- A `u8`: one byte of the frame (R6, R22). -/
abbrev Byte := BitVec 8

/-- A frame address, five bits: every value is a legal address (20_memory.md R50, R62). -/
abbrev Addr := BitVec 5

end Sys2Proof
end

