-- ==== Sys2Proof/Syntax.lean ====
section
/-! DEFINITION. The seven commands of QAQI (spec/30_encoding.md R72, spec/opcode_table.json), one constructor a row. -/

namespace Sys2Proof

/-- A legal command. The operand of `LDB` is the five-bit `ADDR` and the eight-bit `DATA` of R73, unsigned and unscaled. -/
inductive Instr where
  | nop
  | clr
  | ldb (addr : Addr) (data : Byte)
  | val
  | dec
  | aqi
  | run
  deriving DecidableEq, Repr

end Sys2Proof
end

