-- ==== Sys2Proof/WellFormed.lean ====
section
/-! DEFINITION. When an instruction is well-formed. The operands of `Instr` are bit vectors of the field widths of
spec/30_encoding.md R71, so every `Instr` is well-formed; the ranges that R79 and R80 check are those of the numbers an
assembler line carries. -/

namespace Sys2Proof

/-- Every `(a, d)` of `LDB` is legal (40_frame_control.md R92) and the other commands have no operand. -/
def Instr.wellFormed : Instr → Bool
  | .nop => true
  | .clr => true
  | .ldb _ _ => true
  | .val => true
  | .dec => true
  | .aqi => true
  | .run => true

/-- A frame address of `LDB a, d` in assembler (R79: 0..31). -/
def addrInRange (n : Nat) : Bool := decide (n < 32)

/-- A byte of an assembler line (R79: 0..255). -/
def byteInRange (n : Nat) : Bool := decide (n < 256)

/-- The address of `LDH a, v` (R80: 0 ≤ a ≤ 30). -/
def halfAddrInRange (n : Nat) : Bool := decide (n ≤ 30)

/-- The value of `LDH a, v` (R80: 0 ≤ v ≤ 65535). -/
def halfInRange (n : Nat) : Bool := decide (n < 65536)

/-- The operands of `LDF` and `READ` (R80): exactly 32 numbers, each a byte. -/
def frameInRange (bs : List Nat) : Bool := decide (bs.length = 32) && bs.all byteInRange

end Sys2Proof
end

