-- ==== Sys2Proof/Decode.lean ====
section
/-! DEFINITION. Decoding and encoding of the 16-bit command word (spec/30_encoding.md R70 to R78). -/

namespace Sys2Proof

/-- Why a word is illegal (R76). Both kinds have the same effect; the name says which clause of R76 applies. -/
inductive Illegal where
  /-- `OP = 0b111`. -/
  | reservedOpcode
  /-- A format-N opcode whose bits 12:0 are not all zero. -/
  | nonzeroField
  deriving DecidableEq, Repr

/-- `Cmd | Illegal` (R75). -/
inductive Decoded where
  | cmd (i : Instr)
  | illegal (why : Illegal)
  deriving DecidableEq, Repr

/-- The legal command, if there is one. -/
def Decoded.toOption : Decoded → Option Instr
  | .cmd i => some i
  | .illegal _ => none

/-- `OP = cmd[15:13]` (R71). -/
def opField (w : Word) : BitVec 3 := w.extractLsb' 13 3

/-- `ADDR = cmd[12:8]` (R71, R73). -/
def addrField (w : Word) : Addr := w.extractLsb' 8 5

/-- `DATA = cmd[7:0]` (R71, R73). -/
def dataField (w : Word) : Byte := w.extractLsb' 0 8

/-- `cmd[12:0]`, which format N requires to be zero (R71). -/
def lowField (w : Word) : BitVec 13 := w.extractLsb' 0 13

/-- The command of a format-N opcode, where the opcode has one (R72). -/
def formatN (op : BitVec 3) : Option Instr :=
  if op = 0b000 then some .nop
  else if op = 0b001 then some .clr
  else if op = 0b011 then some .val
  else if op = 0b100 then some .dec
  else if op = 0b101 then some .aqi
  else if op = 0b110 then some .run
  else none

/-- `decode` of R75, total on 16-bit words. -/
def decode (w : Word) : Decoded :=
  if opField w = 0b010 then .cmd (.ldb (addrField w) (dataField w))
  else match formatN (opField w) with
    | none => .illegal .reservedOpcode
    | some i => if lowField w = 0 then .cmd i else .illegal .nonzeroField

/-- The opcode of a command (R72). -/
def Instr.op : Instr → BitVec 3
  | .nop => 0b000
  | .clr => 0b001
  | .ldb _ _ => 0b010
  | .val => 0b011
  | .dec => 0b100
  | .aqi => 0b101
  | .run => 0b110

/-- Bits 12:0 of a command's word (R71): `ADDR` and `DATA` in format B, zero in format N. -/
def Instr.low : Instr → BitVec 13
  | .nop => 0
  | .clr => 0
  | .ldb a d => a ++ d
  | .val => 0
  | .dec => 0
  | .aqi => 0
  | .run => 0

/-- The word of a command (R72); `encode` of R75. -/
def encode (i : Instr) : Word := i.op ++ i.low

/-- The host's question: the command the decoder reads from a word given as the opcode table numbers its bits. The word is
one 16-bit value and has no byte order (R70); the bits above `nbits` are zero. -/
def decodeTableWord (nbits w : Nat) : Option Instr :=
  (decode (BitVec.ofNat 16 (w % 2 ^ nbits))).toOption

end Sys2Proof
end

