-- ==== Sys2Proof/Config.lean ====
section
/-! DEFINITION. What an implementation of QAQI fixes: the constants and the three parameters of spec/00_scope.md R5, and when
a choice of parameters is well-formed (R5, 43_aqi.md R131). The built values stand in Sys2Proof/Machine/Parameters.lean. -/

namespace Sys2Proof

/-- One band of the breakpoint table (43_aqi.md R130): concentrations in tenths of µg/m³, index bounds, category code.
The bounds are numbers on which R136 calculates exactly; that they are `u16` is a check of `Band.wf`. -/
structure Band where
  cl  : Nat
  ch  : Nat
  il  : Nat
  ih  : Nat
  cat : BitVec 3
  deriving DecidableEq, Repr

/-- The parameters a model takes as configuration (00_scope.md R5, 10_state.md R37): `HDR_SIG`, `PM25_OFF`, `BP_TABLE`.
The type of `pm25Off` is the domain 0..30 of a two-byte read (20_memory.md R62); `NB` is the table's length. -/
structure Params where
  hdrSig  : Word
  pm25Off : Fin 31
  bpTable : List Band
  deriving DecidableEq, Repr

namespace Config

/-- `FRAME_LEN` (R5). -/
abbrev frameLen : Nat := 32

/-- `HDR_OFF`, where the two signature bytes begin (R5). -/
abbrev hdrOff : Addr := 0

/-- `LEN_OFF`, the frame body length: named by R5 and R53, interpreted by nothing (41_validate.md R107). -/
abbrev lenOff : Addr := 2

/-- How many bytes are summed, addresses `SUM_FIRST` = 0x00 to `SUM_LAST` = 0x1D (R5). -/
abbrev sumLen : Nat := 30

/-- `CK_OFF`, the declared checksum (R5). -/
abbrev ckOff : Fin 31 := 0x1E

/-- `CONC_SCALE`: table concentrations are tenths of µg/m³ (R5). -/
abbrev concScale : Nat := 10

/-- The largest index of the scale (43_aqi.md R131 item 3). -/
abbrev indexMax : Nat := 500

/-- The largest category code a band may carry (43_aqi.md R131 item 6). -/
abbrev catMax : BitVec 3 := 5

/-- The invalid value of `AQI` (10_state.md R25, R33). -/
abbrev aqiInvalid : Word := 0xFFFF

/-- The invalid value of `CAT` (10_state.md R26, R33). -/
abbrev catInvalid : BitVec 3 := 7

end Config

/-- One entry's own conditions (43_aqi.md R131 items 3 and 6, and the `u16` of R130). -/
def Band.wf (b : Band) : Bool :=
  decide (b.cl < b.ch) && decide (b.ch < 2 ^ 16) && decide (b.il ≤ b.ih) && decide (b.ih ≤ Config.indexMax)
    && decide (b.cat ≤ Config.catMax)

/-- What two neighbouring entries satisfy (43_aqi.md R131 items 4 and 5): adjacent at one tenth, or a shared boundary; the
index ranges ascend. -/
def Band.follows (upper lower : Band) : Bool :=
  (decide (upper.cl = lower.ch + 1) || decide (upper.cl = lower.ch)) && decide (lower.ih ≤ upper.il)

/-- Every entry is well-formed and every entry but the first follows the one before it. -/
def bandsChain : List Band → Bool
  | [] => true
  | [b] => b.wf
  | b :: c :: t => b.wf && c.follows b && bandsChain (c :: t)

/-- `WF(BP_TABLE)` (43_aqi.md R131). -/
def tableWf (t : List Band) : Bool :=
  decide (1 ≤ t.length) && decide (t.length ≤ 8) && decide (t.head?.map Band.cl = some 0) && bandsChain t

/-- The constraints of 00_scope.md R5 on the three parameters. -/
def Params.wf (P : Params) : Bool :=
  decide (P.hdrSig ≠ 0) && decide (0x04 ≤ P.pm25Off.val) && decide (P.pm25Off.val ≤ 0x1C) && tableWf P.bpTable

end Sys2Proof
end

