-- ==== Sys2Proof/Machine/State.lean ====
section
/-! DEFINITION. The state of QAQI (spec/10_state.md R20), the host's side that a step reads (R31, R36, R37), the reasons a
step could stop, and the state after reset (R35). -/

namespace Sys2Proof.Machine

/-- No step of QAQI faults: "every command word in every reachable state has exactly one defined next state"
(93_implementation_defined.md section 3). Protocol errors are next states (60_exceptions.md R175), so this type is empty. -/
inductive Fault where
  deriving DecidableEq, Repr

/-- Why a step is refused. -/
inductive Refusal where
  /-- An instruction without a meaning. Raised only by an arm of `exec` that has none; no arm is left so. Safe. -/
  | notModelled (mnemonic : String)
  /-- The parameters are not well-formed (93_implementation_defined.md X4, U2: "refuse at configuration"). Raised by
  `stepAt` for such parameters on every state; `step`, whose parameters are well-formed, never raises it. Safe. -/
  | illFormedParameters
  deriving DecidableEq, Repr

/-- What the host drives at one rising edge of `clk` at which `cmd_ready_o = 1` (10_state.md R36): `rst`, `cmd_valid_i`
and `cmd_i`. -/
structure PortSample where
  rst      : Bool
  cmdValid : Bool
  cmd      : Word
  deriving DecidableEq, Repr

/-- The frame buffer as (address, byte) pairs: addresses strictly rising, and no entry equal to the byte 0x00 that an
unlisted address reads as, which is every byte's reset value (10_state.md R22, R35). -/
abbrev Memory := List Host.Cell

/-- What an address that is not listed reads as: the reset value of a frame byte (10_state.md R35). -/
abbrev Memory.unlisted : Byte := 0x00

/-- Every listed address is above `lo` (where one is given), the addresses rise strictly, no listed byte is the unlisted one. -/
def Memory.risingFrom : Option Nat → Memory → Bool
  | _, [] => true
  | lo, (k, b) :: t => lo.all (fun l => decide (l < k)) && decide (b ≠ Memory.unlisted) && Memory.risingFrom (some k) t

/-- The canonical form of the frame buffer: rising, without unlisted bytes, and inside the 32 addresses of 20_memory.md
R50. -/
def Memory.wf (m : Memory) : Bool :=
  Memory.risingFrom none m && m.all (fun c => decide (c.1 < Config.frameLen))

/-- QAQI's state (10_state.md R20) and the host's side of the command port. -/
structure State where
  /-- `FRAME` (R22). -/
  frame : Memory
  /-- `SUM` (R23). -/
  sum : Word
  /-- `PM25` (R24). -/
  pm25 : Word
  /-- `AQI` (R25). -/
  aqi : Word
  /-- `CAT` (R26). -/
  cat : BitVec 3
  /-- `ST` (R27). -/
  st : Word
  /-- What the host drives at the coming edges: the model's field for the host (R36, R37; assumption 1). -/
  pending : List PortSample
  /-- How many words have been accepted, R31's index into the host's words: host state, kept by every reset. -/
  accepted : Nat
  deriving DecidableEq, Repr

/-- The state after reset (10_state.md R35); the host presents nothing yet (assumptions 1 and 4). -/
def State.reset : State :=
  { frame := [], sum := 0x0000, pm25 := 0x0000, aqi := Config.aqiInvalid, cat := Config.catInvalid, st := 0x0000,
    pending := [], accepted := 0 }

end Sys2Proof.Machine
end

