-- ==== Sys2Proof/Machine/Flags.lean ====
section
/-! DEFINITION. The fields of the status register `ST` (spec/10_state.md R27), the codes of `ERR` (R28) and `PEC` (R30). -/

namespace Sys2Proof.Machine

/-- The field of `n` bits from bit `lo` up. -/
def getField (st : Word) (lo n : Nat) : BitVec n := st.extractLsb' lo n

/-- `st` with the field of `n` bits from bit `lo` up replaced; every other bit stays. -/
def putField (st : Word) (lo n : Nat) (x : BitVec n) : Word :=
  (st &&& ~~~((BitVec.allOnes n).setWidth 16 <<< lo)) ||| (x.setWidth 16 <<< lo)

/-- The data outcomes (10_state.md R28, 60_exceptions.md R171). -/
inductive DataOutcome where
  | none
  | invalidHeader
  | checksumMismatch
  | outOfRange
  deriving DecidableEq, Repr

/-- The code of a data outcome in `ST.ERR` (R28). -/
def DataOutcome.code : DataOutcome → BitVec 3
  | .none => 0
  | .invalidHeader => 1
  | .checksumMismatch => 2
  | .outOfRange => 3

/-- The causes of a protocol error (R30, 60_exceptions.md R175). -/
inductive ProtocolError where
  | illegalCommand
  | notValidated
  | noConcentration
  deriving DecidableEq, Repr

/-- The code of a protocol error in `ST.PEC` (R30). -/
def ProtocolError.code : ProtocolError → BitVec 2
  | .illegalCommand => 1
  | .notValidated => 2
  | .noConcentration => 3

/-- `ST.V` (R27): the bytes now in `FRAME` passed validation. -/
def State.v (s : State) : Bool := getField s.st 0 1 = 1

/-- `ST.P` (R27): `PM25` holds the decode of the validated frame. -/
def State.p (s : State) : Bool := getField s.st 1 1 = 1

/-- `ST.R` (R27): `AQI` and `CAT` hold `compute(PM25)`. -/
def State.r (s : State) : Bool := getField s.st 2 1 = 1

/-- `ST.PE` (R27): a protocol error happened. -/
def State.pe (s : State) : Bool := getField s.st 3 1 = 1

/-- `ST.ERR` (R27, R28). -/
def State.err (s : State) : BitVec 3 := getField s.st 4 3

/-- `ST.PEC` (R27, R30). -/
def State.pec (s : State) : BitVec 2 := getField s.st 8 2

/-- `ST.V <- b`. -/
def State.setV (s : State) (b : Bool) : State := { s with st := putField s.st 0 1 (BitVec.ofBool b) }

/-- `ST.P <- b`. -/
def State.setP (s : State) (b : Bool) : State := { s with st := putField s.st 1 1 (BitVec.ofBool b) }

/-- `ST.R <- b`. -/
def State.setR (s : State) (b : Bool) : State := { s with st := putField s.st 2 1 (BitVec.ofBool b) }

/-- `ST.PE <- b`. -/
def State.setPe (s : State) (b : Bool) : State := { s with st := putField s.st 3 1 (BitVec.ofBool b) }

/-- `ST.ERR <- o`. -/
def State.setErr (s : State) (o : DataOutcome) : State := { s with st := putField s.st 4 3 o.code }

/-- `ST.PEC <- e`. -/
def State.setPec (s : State) (e : ProtocolError) : State := { s with st := putField s.st 8 2 e.code }

end Sys2Proof.Machine
end

