-- ==== Sys2Proof/Machine/Ops.lean ====
section
/-! DEFINITION. The shared operations over the frame buffer and the registers: one byte read and written, invalidation
(spec/10_state.md R33), reset (R35), raising a protocol error (spec/60_exceptions.md R175), the protocol-error state (R176),
accepting a word (spec/40_frame_control.md R93, spec/10_state.md R31). -/

namespace Sys2Proof.Machine

/-- The frame buffer becomes `F` (10_state.md R22). -/
def State.setFrame (s : State) (F : Memory) : State := { s with frame := F }

/-- `SUM <- x` (R23). -/
def State.setSum (s : State) (x : Word) : State := { s with sum := x }

/-- `PM25 <- x` (R24). -/
def State.setPm25 (s : State) (x : Word) : State := { s with pm25 := x }

/-- `AQI <- x` (R25). -/
def State.setAqi (s : State) (x : Word) : State := { s with aqi := x }

/-- `CAT <- c` (R26). -/
def State.setCat (s : State) (c : BitVec 3) : State := { s with cat := c }

/-- What the host still drives. -/
def State.setPending (s : State) (l : List PortSample) : State := { s with pending := l }

/-- How many words have been accepted (R31). -/
def State.setAccepted (s : State) (n : Nat) : State := { s with accepted := n }

/-- The byte listed at a key, or the unlisted byte. -/
def Memory.lookup : Memory → Nat → Byte
  | [], _ => Memory.unlisted
  | (k, b) :: t, a => if k = a then b else Memory.lookup t a

/-- `F[a]` (00_scope.md R7). -/
def Memory.read (m : Memory) (a : Addr) : Byte := Memory.lookup m a.toNat

/-- Without any entry at the key `a`. -/
def Memory.erase (m : Memory) (a : Nat) : Memory := m.filter (fun c => decide (c.1 ≠ a))

/-- With an entry at the key `a` put before the first larger key. -/
def Memory.place : Memory → Nat → Byte → Memory
  | [], a, d => [(a, d)]
  | (k, b) :: t, a, d => if a < k then (a, d) :: (k, b) :: t else (k, b) :: Memory.place t a d

/-- Put the byte `d` at the key `a`, keeping the canonical form: the unlisted byte is never listed. -/
def Memory.insert (m : Memory) (a : Nat) (d : Byte) : Memory :=
  if d = Memory.unlisted then m.erase a else (m.erase a).place a d

/-- `F[a] <- d` (00_scope.md R7). -/
def Memory.write (m : Memory) (a : Addr) (d : Byte) : Memory := Memory.insert m a.toNat d

/-- The result stages `val < dec < aqi` (10_state.md R33). -/
inductive Stage where
  | val
  | dec
  | aqi
  deriving DecidableEq, Repr

/-- The invalid values of stage `aqi` (R33): `R = 0`, `AQI = 0xFFFF`, `CAT = 7`. -/
def invalidateAqi (s : State) : State :=
  ((s.setR false).setAqi Config.aqiInvalid).setCat Config.catInvalid

/-- The invalid values of stage `dec` (R33): `P = 0`, `PM25 = 0x0000`. -/
def invalidateDec (s : State) : State := (s.setP false).setPm25 0x0000

/-- The invalid values of stage `val` (R33): `V = 0`, `SUM = 0x0000`. -/
def invalidateVal (s : State) : State := (s.setV false).setSum 0x0000

/-- `invalidate_from(stage)` (R33): the invalid values of the stage and of every later one. -/
def invalidateFrom (stage : Stage) (s : State) : State :=
  match stage with
  | .val => invalidateAqi (invalidateDec (invalidateVal s))
  | .dec => invalidateAqi (invalidateDec s)
  | .aqi => invalidateAqi s

/-- Every piece of QAQI's state to its reset value (10_state.md R35, 70_reset_and_hazards.md R190). The host's side stays:
"reset of QAQI does not change it" (10_state.md R31). -/
def resetAll (s : State) : State :=
  (State.reset.setPending s.pending).setAccepted s.accepted

/-- `raise ProtocolError(code)` (60_exceptions.md R175): `PE <- 1`, `PEC <- code`, nothing else changes. -/
def raiseProtocolError (e : ProtocolError) (s : State) : State := (s.setPe true).setPec e

/-- What a command other than `CLR` does (40_frame_control.md R93): nothing while `PE = 1` (60_exceptions.md R176), else its
body. -/
def unlessProtocolError (body : State → State) (s : State) : State := if s.pe then s else body s

/-- An illegal word (30_encoding.md R76) in a state without protocol error. -/
def bodyIllegal (s : State) : State := raiseProtocolError .illegalCommand s

/-- An accepted illegal word (40_frame_control.md R93). -/
def execIllegal (s : State) : Host.Outcome State Fault Refusal := .next (unlessProtocolError bodyIllegal s)

/-- What the port shows at the next edge: nothing driven at all, a reset, no word, or a word that is accepted; each with the
state in which the sample has been taken. -/
inductive Fetched where
  | idle  (s : State)
  | reset (s : State)
  | word  (w : Word) (s : State)
  deriving DecidableEq, Repr

/-- A word is accepted: R31's index advances by exactly one. -/
def acceptWord (s : State) : State := s.setAccepted (s.accepted + 1)

/-- Take the host's next sample (10_state.md R36). Reset has priority over acceptance in the same cycle
(70_reset_and_hazards.md R190); without a valid word, or with nothing driven, QAQI is idle (10_state.md R21). -/
def fetch (s : State) : Fetched :=
  match s.pending with
  | [] => .idle s
  | e :: rest =>
    if e.rst then .reset (s.setPending rest)
    else if e.cmdValid then .word e.cmd (acceptWord (s.setPending rest))
    else .idle (s.setPending rest)

/-- The sample of a host that presents the word `w`. -/
def presentWord (w : Word) : PortSample := { rst := false, cmdValid := true, cmd := w }

end Sys2Proof.Machine
end

