-- ==== Sys2Proof/Machine/Operands.lean ====
section
/-! DEFINITION. The reads of the frame that the commands make (spec/20_memory.md R51 to R55): the two-byte big-endian read and
the bytes of the checksum sum. The operands of `LDB` are the fields of its word (spec/30_encoding.md R73) and stand in
`Instr.ldb`. -/

namespace Sys2Proof.Machine

/-- `be16(a) = {F[a], F[a+1]}` (R51), defined on 0..30 (R62), odd addresses too (R54). -/
def Memory.be16 (m : Memory) (a : Fin 31) : Word :=
  m.read (BitVec.ofNat 5 a.val) ++ m.read (BitVec.ofNat 5 (a.val + 1))

/-- The first `n` bytes of the frame, added as numbers (41_validate.md R101: byte by byte, not as 16-bit fields). -/
def Memory.sumBytes (m : Memory) : Nat → Nat
  | 0 => 0
  | n + 1 => m.sumBytes n + (m.read (BitVec.ofNat 5 n)).toNat

end Sys2Proof.Machine
end

