-- ==== Sys2Proof/Machine/FrameControl.lean ====
section
/-! DEFINITION. `NOP`, `CLR`, `LDB` (spec/40_frame_control.md R90 to R92). -/

namespace Sys2Proof.Machine

/-- `body_NOP` (R90). -/
def bodyNop (s : State) : State := s

/-- `NOP` (R90). -/
def execNop (s : State) : Host.Outcome State Fault Refusal := .next (unlessProtocolError bodyNop s)

/-- `body_CLR` (R91): the state after it equals the reset state of 10_state.md R35. -/
def bodyClr (s : State) : State := resetAll s

/-- `CLR` (R91): "works in every state", with `PE = 1` too (R93, 60_exceptions.md R177 item 1). -/
def execClr (s : State) : Host.Outcome State Fault Refusal := .next (bodyClr s)

/-- `body_LDB(a, d)` (R92). -/
def bodyLdb (a : Addr) (d : Byte) (s : State) : State :=
  (invalidateFrom .val (s.setFrame (s.frame.write a d))).setErr .none

/-- `LDB a, d` (R92). -/
def execLdb (a : Addr) (d : Byte) (s : State) : Host.Outcome State Fault Refusal :=
  .next (unlessProtocolError (bodyLdb a d) s)

end Sys2Proof.Machine
end

