-- ==== Sys2Proof/Machine/Parameters.lean ====
section
/-! DEFINITION. The parameter values QAQI is built with (spec/00_scope.md R5, spec/43_aqi.md R132). They are the spec's own
choice, from general knowledge of the sensor family and of the regulator's table (93_implementation_defined.md G1 to G3);
see assumption 6. Claims that need no particular value are stated for every well-formed `Params`. -/

namespace Sys2Proof.Machine

/-- The default `BP_TABLE`, six bands (43_aqi.md R132). -/
def builtTable : List Band :=
  [ { cl := 0,    ch := 90,   il := 0,   ih := 50,  cat := 0 },
    { cl := 91,   ch := 354,  il := 51,  ih := 100, cat := 1 },
    { cl := 355,  ch := 554,  il := 101, ih := 150, cat := 2 },
    { cl := 555,  ch := 1254, il := 151, ih := 200, cat := 3 },
    { cl := 1255, ch := 2254, il := 201, ih := 300, cat := 4 },
    { cl := 2255, ch := 3254, il := 301, ih := 500, cat := 5 } ]

/-- The parameters "QAQI is built with" (00_scope.md R5). -/
def built : Params := { hdrSig := 0x424D, pm25Off := 0x0C, bpTable := builtTable }

end Sys2Proof.Machine
end

