-- ==== Sys2Proof/Machine/Extractor.lean ====
section
/-! DEFINITION. The PM2.5 field extractor and `DEC` (spec/42_decode.md R120 to R123). -/

namespace Sys2Proof.Machine

/-- `decode(F) = be16(PM25_OFF)` (R120): total, on validated frames and others (R121). -/
def decodePm25 (P : Params) (F : Memory) : Word := F.be16 P.pm25Off

/-- `body_DEC` (R122). -/
def bodyDec (P : Params) (s : State) : State :=
  if !s.v then raiseProtocolError .notValidated s
  else
    let s := invalidateFrom .aqi s
    let s := s.setPm25 (decodePm25 P s.frame)
    (s.setP true).setErr .none

/-- `DEC` (R122). -/
def execDec (s : State) : Host.Outcome State Fault Refusal := .next (unlessProtocolError (bodyDec built) s)

end Sys2Proof.Machine
end

