-- ==== Sys2Proof/Machine/Interpolator.lean ====
section
/-! DEFINITION. The AQI interpolation engine and `AQI` (spec/43_aqi.md R130 to R142). Arithmetic is on natural numbers and
exact (R136, R142). -/

namespace Sys2Proof.Machine

/-- `VMAX`, the highest `Ch` of the table (R134). -/
def vmax (t : List Band) : Nat := (t.getLast?.map Band.ch).getD 0

/-- `CMAX = VMAX div 10` (R134). -/
def cmax (t : List Band) : Nat := vmax t / Config.concScale

/-- The largest index, counted from `i`, of an entry with `Cl <= v`. -/
def bandFrom (i : Nat) : List Band → Nat → Option Nat
  | [], _ => none
  | b :: t, v =>
    match bandFrom (i + 1) t v with
    | some j => some j
    | none => if b.cl ≤ v then some i else none

/-- `band(v)` (R135): the largest `i` with `Cl_i <= v`. For a well-formed table there is one. -/
def band (t : List Band) (v : Nat) : Option Nat := bandFrom 0 t v

/-- `interp(v, i)` (R136), on the entry `i` itself: linear interpolation rounded half up. -/
def interp (b : Band) (v : Nat) : Nat :=
  let span := b.ih - b.il
  let den := b.ch - b.cl
  let num := span * (v - b.cl)
  let q := (2 * num + den) / (2 * den)
  b.il + q

/-- `Result(index, cat) | OutOfRange` (R139). -/
inductive Computed where
  | result (index : Word) (cat : BitVec 3)
  | outOfRange
  deriving DecidableEq, Repr

/-- `compute(c)` (R139). The last line is reached only where no band has `Cl <= v`, which no well-formed table allows
(R131 item 2, R135; assumption 8). -/
def compute (t : List Band) (c : Word) : Computed :=
  if cmax t < c.toNat then .outOfRange
  else
    let v := Config.concScale * c.toNat
    match (band t v).bind (fun i => t[i]?) with
    | some b => .result (BitVec.ofNat 16 (interp b v)) b.cat
    | none => .outOfRange

/-- `body_AQI` (R140). -/
def bodyAqi (P : Params) (s : State) : State :=
  if !s.p then raiseProtocolError .noConcentration s
  else
    let s := invalidateFrom .aqi s
    match compute P.bpTable s.pm25 with
    | .outOfRange => s.setErr .outOfRange
    | .result idx cat => (((s.setAqi idx).setCat cat).setR true).setErr .none

/-- `AQI` (R140). -/
def execAqi (s : State) : Host.Outcome State Fault Refusal := .next (unlessProtocolError (bodyAqi built) s)

end Sys2Proof.Machine
end

