-- ==== Sys2Proof/Machine/Validator.lean ====
section
/-! DEFINITION. The checksum validator and `VAL` (spec/41_validate.md R100 to R108). -/

namespace Sys2Proof.Machine

/-- `hdr_ok(F)` (R100): both signature bytes match. -/
def hdrOk (P : Params) (F : Memory) : Bool :=
  decide (F.read Config.hdrOff = P.hdrSig.extractLsb' 8 8) && decide (F.read (Config.hdrOff + 1) = P.hdrSig.extractLsb' 0 8)

/-- `sum16(F)` (R101): the thirty bytes 0x00..0x1D, modulo 2^16. -/
def sum16 (F : Memory) : Word := BitVec.ofNat 16 (F.sumBytes Config.sumLen)

/-- `declared(F) = be16(0x1E)` (R103). -/
def declared (F : Memory) : Word := F.be16 Config.ckOff

/-- The three answers of `validate` (R104). -/
inductive Verdict where
  | valid
  | invalidHeader
  | checksumMismatch
  deriving DecidableEq, Repr

/-- `validate(F)` with the mandatory order (R104, R105). -/
def validate (P : Params) (F : Memory) : Verdict :=
  if !hdrOk P F then .invalidHeader
  else if sum16 F ≠ declared F then .checksumMismatch
  else .valid

/-- `body_VAL` (R108). -/
def bodyVal (P : Params) (s : State) : State :=
  let s := invalidateFrom .val s
  if !hdrOk P s.frame then s.setErr .invalidHeader
  else
    let s := s.setSum (sum16 s.frame)
    if s.sum ≠ declared s.frame then s.setErr .checksumMismatch
    else (s.setV true).setErr .none

/-- `VAL` (R108). -/
def execVal (s : State) : Host.Outcome State Fault Refusal := .next (unlessProtocolError (bodyVal built) s)

end Sys2Proof.Machine
end

