-- ==== Sys2Proof/Machine/Pipeline.lean ====
section
/-! DEFINITION. The whole pipeline, `RUN` (spec/44_pipeline.md R160). -/

namespace Sys2Proof.Machine

/-- `body_RUN` (R160): `VAL`, then `DEC` and `AQI` where the frame validated. -/
def bodyRun (P : Params) (s : State) : State :=
  let s := bodyVal P s
  if s.v then bodyAqi P (bodyDec P s) else s

/-- `RUN` (R160). -/
def execRun (s : State) : Host.Outcome State Fault Refusal := .next (unlessProtocolError (bodyRun built) s)

end Sys2Proof.Machine
end

