-- ==== Sys2Proof/Machine/Configured.lean ====
section
/-! DEFINITION. QAQI with any parameters (spec/00_scope.md R5: "a model takes HDR_SIG, PM25_OFF and BP_TABLE as configuration
arguments"), and the step relation of spec/40_frame_control.md R93 over the meaning of a command. -/

namespace Sys2Proof.Machine

/-- The effect of a command on a state, for any parameters, in the order of 60_exceptions.md R177. `exec` is its case at the
parameters QAQI is built with. -/
def effectAt (P : Params) (i : Instr) (s : State) : State :=
  match i with
  | .clr => bodyClr s
  | .nop => unlessProtocolError bodyNop s
  | .ldb a d => unlessProtocolError (bodyLdb a d) s
  | .val => unlessProtocolError (bodyVal P) s
  | .dec => unlessProtocolError (bodyDec P) s
  | .aqi => unlessProtocolError (bodyAqi P) s
  | .run => unlessProtocolError (bodyRun P) s

/-- The meaning of a command for any parameters; ill-formed ones are refused (93_implementation_defined.md X4). -/
def execAt (P : Params) (i : Instr) (s : State) : Host.Outcome State Fault Refusal :=
  if P.wf then .next (effectAt P i s) else .refused .illFormedParameters

/-- One step (40_frame_control.md R93) over a meaning of the commands: take the host's next sample; reset, stay idle, run the
command the accepted word decodes to, or treat it as illegal. -/
def stepWith (run : Instr → State → Host.Outcome State Fault Refusal) (s : State) : Host.Outcome State Fault Refusal :=
  match fetch s with
  | .idle s => .next s
  | .reset s => .next (resetAll s)
  | .word w s =>
    match decode w with
    | .cmd i => run i s
    | .illegal _ => execIllegal s

/-- One step of QAQI with the parameters `P`; ill-formed ones are refused whatever the host drives (X4: "at
configuration"). -/
def stepAt (P : Params) (s : State) : Host.Outcome State Fault Refusal :=
  if P.wf then stepWith (execAt P) s else .refused .illFormedParameters

end Sys2Proof.Machine
end

