-- ==== Sys2Proof/Machine/Dispatch.lean ====
section
/-! DEFINITION. The meaning of every command, one arm a constructor (spec/30_encoding.md R72). -/

namespace Sys2Proof.Machine

def exec (i : Instr) (s : State) : Host.Outcome State Fault Refusal :=
  match i with
  | .nop => Sys2Proof.Machine.execNop s
  | .clr => Sys2Proof.Machine.execClr s
  | .ldb a d => Sys2Proof.Machine.execLdb a d s
  | .val => Sys2Proof.Machine.execVal s
  | .dec => Sys2Proof.Machine.execDec s
  | .aqi => Sys2Proof.Machine.execAqi s
  | .run => Sys2Proof.Machine.execRun s

end Sys2Proof.Machine
end

