-- ==== Sys2Proof/Machine/Step.lean ====
section
/-! DEFINITION. One step of QAQI as built (spec/40_frame_control.md R93), and how a word is put where the step takes it. -/

namespace Sys2Proof.Machine

/-- One step of QAQI as built: the host's next sample is taken and, where it is an accepted word, its command runs. -/
def step (s : State) : Host.Outcome State Fault Refusal := stepWith exec s

/-- `s` with the host presenting the given word next, before what it already drives. QAQI fetches nothing: the next command is
whatever word the host presents (10_state.md R31, 20_memory.md R60; assumption 3). -/
def State.withFetchWord (s : State) (nbits w : Nat) : State :=
  s.setPending (presentWord (BitVec.ofNat 16 (w % 2 ^ nbits)) :: s.pending)

end Sys2Proof.Machine
end

