-- ==== Sys2Proof/Machine/Assembler.lean ====
section
/-! DEFINITION. The assembler syntax and the pseudo-commands of spec/30_encoding.md R79 and R80. A line is a list of
characters. What R79 leaves to taste (blanks, letter case of hexadecimal digits, leading zeros) is assumption 14. -/

namespace Sys2Proof.Machine

/-- A line's command, its operands the numbers as written (R79, R80). -/
inductive AsmCommand where
  | nop
  | clr
  | ldb (a d : Nat)
  | val
  | dec
  | aqi
  | run
  | ldh (a v : Nat)
  | ldf (bs : List Nat)
  | read (bs : List Nat)
  deriving DecidableEq, Repr

/-- Every operand is in its range; "an operand out of range is an assembly error" (R79). -/
def AsmCommand.wellFormed : AsmCommand → Bool
  | .nop => true
  | .clr => true
  | .ldb a d => addrInRange a && byteInRange d
  | .val => true
  | .dec => true
  | .aqi => true
  | .run => true
  | .ldh a v => halfAddrInRange a && halfInRange v
  | .ldf bs => frameInRange bs
  | .read bs => frameInRange bs

/-- One `LDB` of the numbers `a`, `d`. -/
def asmLdb (a d : Nat) : Instr := .ldb (BitVec.ofNat 5 a) (BitVec.ofNat 8 d)

/-- `LDB i, b0`, `LDB i+1, b1`, …: the loads of `LDF` in ascending address order (R80). -/
def loadsFrom (i : Nat) : List Nat → List Instr
  | [] => []
  | b :: t => asmLdb i b :: loadsFrom (i + 1) t

/-- The commands of a well-formed line (R80); `LDH` stores big-endian (20_memory.md R51). -/
def AsmCommand.expand : AsmCommand → List Instr
  | .nop => [.nop]
  | .clr => [.clr]
  | .ldb a d => [asmLdb a d]
  | .val => [.val]
  | .dec => [.dec]
  | .aqi => [.aqi]
  | .run => [.run]
  | .ldh a v => [asmLdb a (v / 256), asmLdb (a + 1) (v % 256)]
  | .ldf bs => loadsFrom 0 bs
  | .read bs => loadsFrom 0 bs ++ [.run]

/-- A blank inside a line. DESIGN CHOICE (assumption 14): R79 is silent on which characters are blanks; they are the space, the
tab and the carriage return. -/
def isBlank (c : Char) : Bool := c = ' ' || c = '\t' || c = '\r'

/-- Without blanks at either end. -/
def trimBlanks (cs : List Char) : List Char :=
  ((cs.dropWhile isBlank).reverse.dropWhile isBlank).reverse

/-- The pieces between commas. -/
def splitCommas : List Char → List (List Char)
  | [] => [[]]
  | c :: t =>
    match splitCommas t with
    | [] => [[c]]
    | w :: ws => if c = ',' then [] :: w :: ws else (c :: w) :: ws

/-- The value of a digit in the given base. -/
def digit (base : Nat) (c : Char) : Option Nat :=
  let n := c.toNat
  let v :=
    if 48 ≤ n ∧ n ≤ 57 then n - 48
    else if 97 ≤ n ∧ n ≤ 102 then n - 87
    else if 65 ≤ n ∧ n ≤ 70 then n - 55
    else 16
  if v < base then some v else none

/-- A number's digits, after the value `acc` read so far. -/
def digits (base acc : Nat) : List Char → Option Nat
  | [] => some acc
  | c :: t =>
    match digit base c with
    | some v => digits base (acc * base + v) t
    | none => none

/-- A number: `0x` and hexadecimal digits, or plain decimal digits (R79). That hexadecimal digits may have either case and that
leading zeros leave a number decimal is assumption 14. -/
def number : List Char → Option Nat
  | [] => none
  | '0' :: 'x' :: [] => none
  | '0' :: 'x' :: h :: t => digits 16 0 (h :: t)
  | c :: t => digits 10 0 (c :: t)

/-- Numbers separated by commas; nothing at all is no operand. -/
def operands (cs : List Char) : Option (List Nat) :=
  match cs with
  | [] => some []
  | _ => (splitCommas cs).mapM (fun w => number (trimBlanks w))

/-- The command of a mnemonic and its operands (R79, R80). -/
def asmCommand (mnemonic : List Char) (ns : List Nat) : Option AsmCommand :=
  if mnemonic = ['N', 'O', 'P'] then (if ns = [] then some .nop else none)
  else if mnemonic = ['C', 'L', 'R'] then (if ns = [] then some .clr else none)
  else if mnemonic = ['V', 'A', 'L'] then (if ns = [] then some .val else none)
  else if mnemonic = ['D', 'E', 'C'] then (if ns = [] then some .dec else none)
  else if mnemonic = ['A', 'Q', 'I'] then (if ns = [] then some .aqi else none)
  else if mnemonic = ['R', 'U', 'N'] then (if ns = [] then some .run else none)
  else if mnemonic = ['L', 'D', 'B'] then (match ns with | [a, d] => some (.ldb a d) | _ => none)
  else if mnemonic = ['L', 'D', 'H'] then (match ns with | [a, v] => some (.ldh a v) | _ => none)
  else if mnemonic = ['L', 'D', 'F'] then some (.ldf ns)
  else if mnemonic = ['R', 'E', 'A', 'D'] then some (.read ns)
  else none

/-- The commands of one line. DESIGN CHOICE (assumption 14): a line that is empty but for blanks and a comment has none, the
mnemonic ends at the first blank, and a line of another form is an assembly error. -/
def assembleLine (line : List Char) : Option (List Instr) :=
  let cs := trimBlanks (line.takeWhile (fun c => c ≠ ';'))
  if cs = [] then some []
  else
    match operands (trimBlanks (cs.dropWhile (fun c => !isBlank c))) with
    | none => none
    | some ns =>
      match asmCommand (cs.takeWhile (fun c => !isBlank c)) ns with
      | none => none
      | some c => if c.wellFormed then some c.expand else none

/-- The command words of a program, one line a list of characters; one line in error leaves none (assumption 14). -/
def assemble (lines : List (List Char)) : Option (List Word) :=
  (lines.mapM assembleLine).map (fun cs => (cs.flatten).map encode)

end Sys2Proof.Machine
end

