-- ==== Sys2Proof/Machine/Outputs.lean ====
section
/-! DEFINITION. What the host sees between commands: the output ports (spec/10_state.md R36), the names of the codes (R28, R29,
R30), and what of the registers is a result (R38, spec/70_reset_and_hazards.md R197). -/

namespace Sys2Proof.Machine

/-- The output ports (R36). -/
structure Ports where
  cmdReady : Bool
  st       : Word
  sum      : Word
  pm25     : Word
  aqi      : Word
  cat      : BitVec 3
  deriving DecidableEq, Repr

/-- The bits of `ST` that R27 gives a field: 9:8 and 6:0. The others read 0. -/
abbrev stFields : Word := 0x037F

/-- The ports after a command, when `cmd_ready_o = 1` (R36, 20_memory.md R57; assumption 5). -/
def State.ports (s : State) : Ports :=
  { cmdReady := true, st := s.st &&& stFields, sum := s.sum, pm25 := s.pm25, aqi := s.aqi, cat := s.cat }

/-- The data outcome a value of `ST.ERR` names; 4..7 are never produced (R28). -/
def errName (e : BitVec 3) : Option DataOutcome :=
  if e = 0 then some .none
  else if e = 1 then some .invalidHeader
  else if e = 2 then some .checksumMismatch
  else if e = 3 then some .outOfRange
  else none

/-- The protocol error a value of `ST.PEC` names; 0 is none (R30). -/
def pecName (e : BitVec 2) : Option ProtocolError :=
  if e = 1 then some .illegalCommand
  else if e = 2 then some .notValidated
  else if e = 3 then some .noConcentration
  else none

/-- The category labels (R29). -/
inductive Category where
  | good
  | moderate
  | unhealthyForSensitiveGroups
  | unhealthy
  | veryUnhealthy
  | hazardous
  deriving DecidableEq, Repr

/-- The colours (R29). -/
inductive Colour where
  | green
  | yellow
  | orange
  | red
  | purple
  | maroon
  deriving DecidableEq, Repr

/-- Category and colour of a `CAT` code (R29); 6 is reserved and 7 says that there is no result. -/
def catName (c : BitVec 3) : Option (Category × Colour) :=
  if c = 0 then some (.good, .green)
  else if c = 1 then some (.moderate, .yellow)
  else if c = 2 then some (.unhealthyForSensitiveGroups, .orange)
  else if c = 3 then some (.unhealthy, .red)
  else if c = 4 then some (.veryUnhealthy, .purple)
  else if c = 5 then some (.hazardous, .maroon)
  else none

/-- The result triple, "a result only while `ST.R = 1`" (R38). -/
def State.result (s : State) : Option (Word × Word × BitVec 3) :=
  if s.r then some (s.pm25, s.aqi, s.cat) else none

/-- The concentration, exposed while `ST.P = 1` (R24, R38). -/
def State.concentration (s : State) : Option Word := if s.p then some s.pm25 else none

/-- The computed checksum, meaningful when `ST.V = 1` or `ST.ERR = CHECKSUM_MISMATCH` (R23, 70_reset_and_hazards.md R197). -/
def State.checksum (s : State) : Option Word :=
  if s.v || decide (s.err = DataOutcome.checksumMismatch.code) then some s.sum else none

end Sys2Proof.Machine
end

