-- ==== Sys2Proof/Safety.lean ====
section
/-! DEFINITION. What counts as a safe state and run of QAQI: the state invariants of spec/10_state.md R34, the faulted states of
spec/60_exceptions.md R176, the states a run can reach, and the terms in which a statement says what stays as it was. -/

namespace Sys2Proof.Machine

/-- "A model should treat a state with `PE = 1` as *faulted*" (60_exceptions.md R176). -/
abbrev State.Faulted (s : State) : Prop := s.pe = true

/-- The state invariants of R34, with the canonical form of the frame buffer. The numbers are R34's items. -/
structure StateInv (P : Params) (s : State) : Prop where
  frame_wf : s.frame.wf = true
  /-- 1 -/
  r_needs_p : s.r = true → s.p = true
  /-- 1 -/
  p_needs_v : s.p = true → s.v = true
  /-- 2 -/
  validated : s.v = true → hdrOk P s.frame = true ∧ s.sum = sum16 s.frame ∧ s.sum = declared s.frame
  /-- 3 -/
  decoded : s.p = true → s.pm25 = decodePm25 P s.frame
  /-- 4 -/
  computed : s.r = true → compute P.bpTable s.pm25 = .result s.aqi s.cat ∧ s.aqi.toNat ≤ Config.indexMax
    ∧ s.cat ≤ Config.catMax ∧ s.err = DataOutcome.none.code
  /-- 5 -/
  no_result : s.r = false → s.aqi = Config.aqiInvalid ∧ s.cat = Config.catInvalid
  /-- 5 -/
  no_concentration : s.p = false → s.pm25 = 0
  /-- 5 -/
  no_checksum : s.v = false → s.err ≠ DataOutcome.checksumMismatch.code → s.sum = 0
  /-- 6 -/
  invalid_header : s.err = DataOutcome.invalidHeader.code → s.v = false ∧ s.sum = 0 ∧ hdrOk P s.frame = false
  /-- 7 -/
  checksum_mismatch : s.err = DataOutcome.checksumMismatch.code →
    s.v = false ∧ hdrOk P s.frame = true ∧ s.sum = sum16 s.frame ∧ s.sum ≠ declared s.frame
  /-- 8 -/
  out_of_range : s.err = DataOutcome.outOfRange.code →
    s.p = true ∧ s.r = false ∧ compute P.bpTable s.pm25 = .outOfRange
  /-- 9 -/
  pe_iff_pec : s.pe = false ↔ s.pec = 0
  /-- 10 -/
  reserved : getField s.st 7 1 = 0 ∧ getField s.st 10 6 = 0
  /-- 10 -/
  err_named : s.err ≤ 3

/-- The states a run of QAQI with the parameters `P` reaches: from the reset state, whatever the host drives, steps that
answer a next state. -/
inductive Reachable (P : Params) : State → Prop where
  | start (host : List PortSample) : Reachable P { State.reset with pending := host }
  | step {s t : State} : Reachable P s → stepAt P s = .next t → Reachable P t

/-- Every byte of the frame reads as before. -/
def SameFrame (s t : State) : Prop := ∀ a : Addr, t.frame.read a = s.frame.read a

/-- The four result registers are as before. -/
def SameRegisters (s t : State) : Prop := t.sum = s.sum ∧ t.pm25 = s.pm25 ∧ t.aqi = s.aqi ∧ t.cat = s.cat

/-- The host's side is as before. -/
def SameHost (s t : State) : Prop := t.pending = s.pending ∧ t.accepted = s.accepted

/-- Every bit of `ST` outside `mask` is as before. -/
def SameStatusOutside (mask : Word) (s t : State) : Prop := t.st &&& ~~~mask = s.st &&& ~~~mask

/-- The host presents the word `w` at the next edge and drives `rest` after it (10_state.md R36, 70_reset_and_hazards.md
R196). -/
abbrev State.Presents (s : State) (w : Word) (rest : List PortSample) : Prop :=
  s.pending = { rst := false, cmdValid := true, cmd := w } :: rest

/-- `s` after the word at the port has been accepted and nothing else has happened (10_state.md R31). -/
abbrev State.afterAccept (s : State) (rest : List PortSample) : State :=
  { s with pending := rest, accepted := s.accepted + 1 }

/-- The commands of a list executed in order (20_memory.md R57), stopping at the first that does not answer a next state. -/
def execAll : List Instr → State → Host.Outcome State Fault Refusal
  | [], s => .next s
  | i :: t, s =>
    match exec i s with
    | .next s' => execAll t s'
    | .fault r => .fault r
    | .refused r => .refused r

/-- The byte a list of (address, byte) loads leaves at `a`: the last one loaded there, if any (40_frame_control.md R92). -/
def lastLoaded (a : Addr) : List (Addr × Byte) → Option Byte
  | [] => none
  | (b, d) :: t =>
    match lastLoaded a t with
    | some e => some e
    | none => if b = a then some d else none

/-- The `LDB` commands of a list of loads. -/
def loads (l : List (Addr × Byte)) : List Instr := l.map (fun x => .ldb x.1 x.2)

/-- A result is shown: the host may read `AQI` and `CAT` (10_state.md R38, 70_reset_and_hazards.md R197). -/
abbrev State.Shows (s : State) (c idx : Word) (cat : BitVec 3) : Prop := s.result = some (c, idx, cat)

end Sys2Proof.Machine
end

