-- ==== Sys2Proof/Certificates/Slice0/Obligations.lean ====
section
/-! DEFINITION. The statements for the provers. Each docstring names the rule of spec/ the statement formalises. Statements about
`exec` and `step` are about QAQI as built; those with a `P : Params` hold for every well-formed choice of parameters. -/

open Sys2Proof Sys2Proof.Machine

/-! ### Encoding (spec/30_encoding.md) -/

/-- R75: `decode(encode(c)) = c` for every command, with every operand. -/
def Obligations.DecodeOfEncode : Prop :=
  ∀ i : Instr, i.wellFormed = true → decode (encode i) = .cmd i

/-- R75, the other direction: a legal word is the encoding of the command it decodes to, so no bit of it is ignored. -/
def Obligations.EncodeOfDecode : Prop :=
  ∀ (w : Word) (i : Instr), decode w = .cmd i → encode i = w

/-- R73 and the opcode map: the decoded command from the number the word is. -/
def Obligations.DecodeFollowsOpcodeMap : Prop :=
  ∀ w : Word,
    (w.toNat / 8192 = 2 →
      ∃ a d, decode w = .cmd (.ldb a d) ∧ a.toNat = w.toNat / 256 % 32 ∧ d.toNat = w.toNat % 256) ∧
    (w.toNat / 8192 = 7 → decode w = .illegal .reservedOpcode) ∧
    (w.toNat / 8192 ≠ 2 → w.toNat / 8192 ≠ 7 → w.toNat % 8192 ≠ 0 → decode w = .illegal .nonzeroField) ∧
    (w = 0x0000 → decode w = .cmd .nop) ∧ (w = 0x2000 → decode w = .cmd .clr) ∧ (w = 0x6000 → decode w = .cmd .val) ∧
    (w = 0x8000 → decode w = .cmd .dec) ∧ (w = 0xA000 → decode w = .cmd .aqi) ∧ (w = 0xC000 → decode w = .cmd .run)

/-- R75's counts: 8198 legal words; of the 57338 others 8192 have the reserved opcode and 6 × 8191 a non-zero low field. -/
def Obligations.LegalAndIllegalWordCounts : Prop :=
  ((Finset.range 65536).filter (fun n => (decode (BitVec.ofNat 16 n)).toOption.isSome)).card = 8198 ∧
  ((Finset.range 65536).filter (fun n => decode (BitVec.ofNat 16 n) = .illegal .reservedOpcode)).card = 8192 ∧
  ((Finset.range 65536).filter (fun n => decode (BitVec.ofNat 16 n) = .illegal .nonzeroField)).card = 6 * 8191

/-- A few words written out from R72's table decode to the commands they stand for. -/
def Obligations.SampleWordsDecode : Prop :=
  decode 0b0000000000000000 = .cmd .nop ∧ decode 0b0010000000000000 = .cmd .clr ∧
  decode 0b0100110100000011 = .cmd (.ldb 0x0D 0x03) ∧ decode 0b0101111111111111 = .cmd (.ldb 0x1F 0xFF) ∧
  decode 0b0110000000000000 = .cmd .val ∧ decode 0b1000000000000000 = .cmd .dec ∧
  decode 0b1010000000000000 = .cmd .aqi ∧ decode 0b1100000000000000 = .cmd .run ∧
  decode 0b0110000100000000 = .illegal .nonzeroField ∧ decode 0b1110000000000000 = .illegal .reservedOpcode

/-- R79, R72: an assembled `LDB a, d` in range is the one word `0x4000 + 256*a + d`, and an operand out of range is an
assembly error. -/
def Obligations.AssembledLoadIsItsWord : Prop :=
  ∀ a d : Nat,
    ((AsmCommand.ldb a d).wellFormed = true ↔ a ≤ 31 ∧ d ≤ 255) ∧
    (a ≤ 31 → d ≤ 255 → (AsmCommand.ldb a d).expand.map (fun i => (encode i).toNat) = [0x4000 + 256 * a + d])

/-! ### The step (spec/40_frame_control.md R93, spec/60_exceptions.md, spec/70_reset_and_hazards.md) -/

/-- R93: a step in which a word is accepted is `exec` of the command the word decodes to, on the state in which the word has
been taken and counted; the word at the port is the model's program counter (R31). -/
def Obligations.StepRunsTheAcceptedCommand : Prop :=
  ∀ (s : State) (w : Word) (rest : List PortSample) (i : Instr), s.Presents w rest → decode w = .cmd i →
    i.wellFormed = true ∧ step s = exec i (s.afterAccept rest)

/-- R21, R36: without a sample, or with neither reset nor a valid word in it, the step changes nothing of QAQI. That an
empty list of samples steps to the same state is the model's choice (assumption 2). -/
def Obligations.IdleStepChangesNothing : Prop :=
  ∀ s : State,
    (s.pending = [] → step s = .next s) ∧
    (∀ (e : PortSample) (rest : List PortSample), s.pending = e :: rest → e.rst = false → e.cmdValid = false →
      step s = .next { s with pending := rest })

/-- R35: reset gives every piece of state its value, whatever the state was, with priority over a word at the same edge; the
state after `CLR` is the same; `cmd_ready_o` is 1. -/
def Obligations.ResetAndClrGiveTheResetState : Prop :=
  ∀ s t : State,
    ((∃ (e : PortSample) (rest : List PortSample), s.pending = e :: rest ∧ e.rst = true ∧ step s = .next t) ∨
      exec .clr s = .next t) →
    (∀ a : Addr, t.frame.read a = 0x00) ∧ t.frame = [] ∧ t.sum = 0x0000 ∧ t.pm25 = 0x0000 ∧ t.aqi = 0xFFFF ∧ t.cat = 7 ∧
      t.st = 0x0000 ∧ t.v = false ∧ t.p = false ∧ t.r = false ∧ t.pe = false ∧ t.err = 0 ∧ t.pec = 0 ∧
      t.ports.cmdReady = true ∧ t.accepted = s.accepted

/-- R190: a sample with `rst` is a step that leaves the reset state and does not count its word. -/
def Obligations.ResetSampleStep : Prop :=
  ∀ (s : State) (e : PortSample) (rest : List PortSample), s.pending = e :: rest → e.rst = true →
    step s = .next { State.reset with pending := rest, accepted := s.accepted }

/-- R93, section 3 of 93_implementation_defined.md: every step answers a next state; with other well-formed parameters too;
ill-formed parameters are refused (X4). Two clauses rest on the model's choices: that a state with an empty list of samples has
a step at all (assumption 2; R93 gives a step for an accepted word only), and that the refusal is the answer of every step
under ill-formed parameters (assumption 7; the spec refuses "at configuration"). -/
def Obligations.EveryStepAnswers : Prop :=
  (∀ s : State, ∃ t, step s = .next t) ∧ (∀ (i : Instr) (s : State), ∃ t, exec i s = .next t) ∧
  (∀ (P : Params) (s : State), P.wf = true → ∃ t, stepAt P s = .next t) ∧
  (∀ (P : Params) (s : State), P.wf = false → stepAt P s = .refused .illFormedParameters)

/-- R5, R37: QAQI as built is the machine of the built parameters, and these are well-formed. -/
def Obligations.StepIsTheBuiltMachine : Prop :=
  built.wf = true ∧ (∀ (i : Instr) (s : State), execAt built i s = exec i s) ∧ ∀ s : State, stepAt built s = step s

/-- R76: which words are illegal, and that 0x0000 alone is the no-op; an illegal word is accepted like any other, and executing
it raises ILLEGAL_COMMAND: nothing but `PE` and `PEC` changes. -/
def Obligations.IllegalWordRaisesIllegalCommand : Prop :=
  (∀ w : Word, (∃ why, decode w = .illegal why) ↔
    (w.toNat / 8192 = 7 ∨ (w.toNat / 8192 ≠ 2 ∧ w.toNat % 8192 ≠ 0))) ∧
  (∀ w : Word, decode w = .cmd .nop ↔ w = 0x0000) ∧
  ∀ (s : State) (w : Word) (rest : List PortSample), s.Presents w rest → s.pe = false →
    (w.toNat / 8192 = 7 ∨ (w.toNat / 8192 ≠ 2 ∧ w.toNat % 8192 ≠ 0)) →
    ∃ t, step s = .next t ∧ t.pe = true ∧ t.pec = 1 ∧ SameStatusOutside 0x0308 s t ∧ SameRegisters s t ∧ SameFrame s t ∧
      t.pending = rest ∧ t.accepted = s.accepted + 1

/-- R175: the causes of a protocol error and its codes; the command is abandoned before it changes anything; none can be
raised while `PE = 1`, so `PEC` keeps the first. -/
def Obligations.ProtocolErrorCausesAndEffect : Prop :=
  (∀ (i : Instr) (s : State), s.pe = false →
    ∃ t, exec i s = .next t ∧
      (t.pe = true ↔ (i = .dec ∧ s.v = false) ∨ (i = .aqi ∧ s.p = false)) ∧
      (t.pe = true → t.pec = (if i = .dec then 2 else 3) ∧ SameStatusOutside 0x0308 s t ∧ SameRegisters s t ∧
        SameFrame s t ∧ SameHost s t)) ∧
  (∀ s : State, s.pe = false →
    ∃ t, execIllegal s = .next t ∧ t.pe = true ∧ t.pec = 1 ∧ SameStatusOutside 0x0308 s t ∧ SameRegisters s t ∧
      SameFrame s t ∧ SameHost s t) ∧
  (∀ s : State, s.pe = true → execIllegal s = .next s ∧ ∀ i : Instr, i ≠ .clr → exec i s = .next s)

/-- R176: while `PE = 1` every accepted word but 0x2000 is consumed and ignored; only `CLR` or reset returns `PE` to 0; until
then `ST`, the first error's code in it, stays. -/
def Obligations.ProtocolErrorIsSticky : Prop :=
  ∀ (s : State) (e : PortSample) (rest : List PortSample), s.pe = true → s.pending = e :: rest →
    ∃ t, step s = .next t ∧
      (e.rst = false → e.cmdValid = true → e.cmd ≠ 0x2000 → t = s.afterAccept rest) ∧
      (t.pe = false ↔ e.rst = true ∨ (e.cmdValid = true ∧ e.cmd = 0x2000)) ∧
      (t.pe = true → t.st = s.st ∧ SameRegisters s t ∧ SameFrame s t)

/-- R31: the index of the host's words advances by exactly one at an accepted word, legal, illegal or ignored, and at nothing
else, a reset included; the samples are taken in the host's order; no command reads or sets the index. What the step does on
an empty list of samples is the model's choice (assumption 2). -/
def Obligations.AcceptedWordsAreCounted : Prop :=
  State.reset.accepted = 0 ∧
  (∀ s t : State, step s = .next t →
    t.accepted = s.accepted + (match s.pending with
      | [] => 0
      | e :: _ => if e.rst = false ∧ e.cmdValid = true then 1 else 0) ∧ t.pending = s.pending.tail) ∧
  (∀ (i : Instr) (s t : State) (n : Nat), exec i s = .next t →
    t.accepted = s.accepted ∧ exec i { s with accepted := n } = .next { t with accepted := n })

/-! ### The commands -/

/-- R90: `NOP` is the word 0x0000 and changes nothing. -/
def Obligations.NopChangesNothing : Prop :=
  encode .nop = 0x0000 ∧ ∀ s : State, exec .nop s = .next s

/-- R91: `CLR` is the exact word 0x2000 and, in every state, writes every byte, register and flag to the values of the reset
state; it alone executes while `PE = 1`. -/
def Obligations.ClrLeavesTheResetState : Prop :=
  (∀ w : Word, decode w = .cmd .clr ↔ w = 0x2000) ∧
  (∀ s : State, ∃ t, exec .clr s = .next t ∧ t = { State.reset with pending := s.pending, accepted := s.accepted } ∧
    (∀ a : Addr, t.frame.read a = 0x00) ∧ t.sum = 0x0000 ∧ t.pm25 = 0x0000 ∧ t.aqi = 0xFFFF ∧ t.cat = 7 ∧ t.st = 0x0000) ∧
  ∀ (i : Instr) (s : State), s.pe = true → i ≠ .clr → exec i s = .next s

/-- R92: `LDB a, d` stores the byte and invalidates everything derived from the frame, whatever the byte was. -/
def Obligations.LdbStoresAndInvalidates : Prop :=
  ∀ (a : Addr) (d : Byte),
    encode (.ldb a d) = 0x4000 ||| (a.setWidth 16 <<< 8) ||| d.setWidth 16 ∧
    ∀ s : State, s.pe = false →
      ∃ t, exec (.ldb a d) s = .next t ∧ t.frame.read a = d ∧ (∀ b : Addr, b ≠ a → t.frame.read b = s.frame.read b) ∧
        t.v = false ∧ t.p = false ∧ t.r = false ∧ t.err = 0 ∧ t.sum = 0x0000 ∧ t.pm25 = 0x0000 ∧ t.aqi = 0xFFFF ∧
        t.cat = 7 ∧ SameStatusOutside 0x0077 s t ∧ SameHost s t

/-- R108: `VAL`. -/
def Obligations.ValChecksTheFrame : Prop :=
  encode .val = 0x6000 ∧
  ∀ s : State, s.pe = false →
    ∃ t, exec .val s = .next t ∧
      (hdrOk built s.frame = false → t.v = false ∧ t.err = 1 ∧ t.sum = 0x0000) ∧
      (hdrOk built s.frame = true → sum16 s.frame ≠ declared s.frame → t.v = false ∧ t.err = 2 ∧ t.sum = sum16 s.frame) ∧
      (hdrOk built s.frame = true → sum16 s.frame = declared s.frame → t.v = true ∧ t.err = 0 ∧ t.sum = sum16 s.frame) ∧
      t.p = false ∧ t.r = false ∧ t.pm25 = 0x0000 ∧ t.aqi = 0xFFFF ∧ t.cat = 7 ∧
      SameStatusOutside 0x0077 s t ∧ SameFrame s t ∧ SameHost s t

/-- R122: `DEC` on a validated frame extracts the big-endian field at 0x0C and invalidates the index; on a frame not validated
it raises NOT_VALIDATED and changes nothing else. -/
def Obligations.DecExtractsTheConcentration : Prop :=
  encode .dec = 0x8000 ∧
  ∀ s : State, s.pe = false →
    (s.v = true →
      ∃ t, exec .dec s = .next t ∧ t.pm25.toNat = (s.frame.read 0x0C).toNat * 256 + (s.frame.read 0x0D).toNat ∧
        t.p = true ∧ t.r = false ∧ t.err = 0 ∧ t.aqi = 0xFFFF ∧ t.cat = 7 ∧ t.sum = s.sum ∧
        SameStatusOutside 0x0076 s t ∧ SameFrame s t ∧ SameHost s t) ∧
    (s.v = false →
      ∃ t, exec .dec s = .next t ∧ t.pe = true ∧ t.pec = 2 ∧ SameStatusOutside 0x0308 s t ∧ SameRegisters s t ∧
        SameFrame s t ∧ SameHost s t)

/-- R140: `AQI` writes the computed index and category, or OUT_OF_RANGE above 325 µg/m³; without a concentration it raises
NO_CONCENTRATION and changes nothing else. -/
def Obligations.AqiWritesTheComputedIndex : Prop :=
  encode .aqi = 0xA000 ∧
  ∀ s : State, s.pe = false →
    (s.p = true →
      ∃ t, exec .aqi s = .next t ∧
        (325 < s.pm25.toNat → t.r = false ∧ t.err = 3 ∧ t.aqi = 0xFFFF ∧ t.cat = 7) ∧
        (s.pm25.toNat ≤ 325 → t.r = true ∧ t.err = 0 ∧ compute builtTable s.pm25 = .result t.aqi t.cat) ∧
        (s.pm25 = 0 → t.aqi = 0 ∧ t.cat = 0) ∧ (s.pm25 = 41 → t.aqi = 115 ∧ t.cat = 2) ∧
        (s.pm25 = 325 → t.aqi = 499 ∧ t.cat = 5) ∧
        t.sum = s.sum ∧ t.pm25 = s.pm25 ∧ SameStatusOutside 0x0074 s t ∧ SameFrame s t ∧ SameHost s t) ∧
    (s.p = false →
      ∃ t, exec .aqi s = .next t ∧ t.pe = true ∧ t.pec = 3 ∧ SameStatusOutside 0x0308 s t ∧ SameRegisters s t ∧
        SameFrame s t ∧ SameHost s t)

/-- R160: `RUN`'s four outcomes and the state each leaves. The exact word of `ST` is for a state whose bits 15:7 are zero, as
they are in every reachable state without protocol error. -/
def Obligations.RunOutcomes : Prop :=
  encode .run = 0xC000 ∧
  ∀ s : State, s.pe = false →
    ∃ t, exec .run s = .next t ∧
      (validate built s.frame = .invalidHeader →
        t.v = false ∧ t.p = false ∧ t.r = false ∧ t.err = 1 ∧ t.sum = 0x0000 ∧ t.pm25 = 0x0000 ∧ t.aqi = 0xFFFF ∧
        t.cat = 7 ∧ (s.st.toNat < 128 → t.st = 0x0010)) ∧
      (validate built s.frame = .checksumMismatch →
        t.v = false ∧ t.p = false ∧ t.r = false ∧ t.err = 2 ∧ t.sum = sum16 s.frame ∧ t.pm25 = 0x0000 ∧ t.aqi = 0xFFFF ∧
        t.cat = 7 ∧ (s.st.toNat < 128 → t.st = 0x0020)) ∧
      (validate built s.frame = .valid → 325 < (decodePm25 built s.frame).toNat →
        t.v = true ∧ t.p = true ∧ t.r = false ∧ t.err = 3 ∧ t.sum = sum16 s.frame ∧ t.pm25 = decodePm25 built s.frame ∧
        t.aqi = 0xFFFF ∧ t.cat = 7 ∧ (s.st.toNat < 128 → t.st = 0x0033)) ∧
      (validate built s.frame = .valid → (decodePm25 built s.frame).toNat ≤ 325 →
        t.v = true ∧ t.p = true ∧ t.r = true ∧ t.err = 0 ∧ t.sum = sum16 s.frame ∧ t.pm25 = decodePm25 built s.frame ∧
        compute builtTable t.pm25 = .result t.aqi t.cat ∧ (s.st.toNat < 128 → t.st = 0x0007)) ∧
      SameStatusOutside 0x0077 s t ∧ SameFrame s t ∧ SameHost s t

/-- R161, which the spec derives from R108, R122, R140 and R160: `RUN` leaves the state of `VAL`, then `DEC` if the frame validated, then `AQI`; a host that goes on after a `VAL`
that failed gets NOT_VALIDATED. -/
def Obligations.RunIsTheThreeStages : Prop :=
  ∀ s : State, s.pe = false →
    ∃ t, exec .val s = .next t ∧ t.pe = false ∧
      (t.v = true → ∃ u w, exec .dec t = .next u ∧ exec .aqi u = .next w ∧ exec .run s = .next w ∧ w.pe = false) ∧
      (t.v = false → exec .run s = .next t ∧
        ∃ u, exec .dec t = .next u ∧ u.pe = true ∧ u.pec = 2 ∧ SameRegisters t u ∧ SameFrame t u)

/-- R55: every command may be repeated with the same result, in every state. -/
def Obligations.EveryCommandIsIdempotent : Prop :=
  ∀ (i : Instr) (s t : State), exec i s = .next t → exec i t = .next t

/-- R33: `invalidate_from` writes the invalid values of the stage and of every later one, and nothing else. -/
def Obligations.InvalidationWritesLaterStagesOnly : Prop :=
  ∀ s : State,
    (∀ stage : Stage,
      (invalidateFrom stage s).r = false ∧ (invalidateFrom stage s).aqi = 0xFFFF ∧ (invalidateFrom stage s).cat = 7 ∧
      SameFrame s (invalidateFrom stage s) ∧ SameHost s (invalidateFrom stage s) ∧
      SameStatusOutside 0x0007 s (invalidateFrom stage s)) ∧
    (∀ stage : Stage, stage ≠ .aqi → (invalidateFrom stage s).p = false ∧ (invalidateFrom stage s).pm25 = 0x0000) ∧
    ((invalidateFrom .val s).v = false ∧ (invalidateFrom .val s).sum = 0x0000) ∧
    ((invalidateFrom .dec s).v = s.v ∧ (invalidateFrom .dec s).sum = s.sum) ∧
    ((invalidateFrom .aqi s).v = s.v ∧ (invalidateFrom .aqi s).sum = s.sum ∧ (invalidateFrom .aqi s).p = s.p ∧
      (invalidateFrom .aqi s).pm25 = s.pm25)

/-! ### The frame buffer (spec/20_memory.md, spec/10_state.md R22) -/

/-- R51, R103, R120: the two-byte read is big-endian at even and odd addresses, and the declared checksum and the
concentration are such reads, unsigned and unscaled. -/
def Obligations.TwoByteFieldsAreBigEndian : Prop :=
  (∀ (F : Memory) (a : Fin 31),
    (F.be16 a).toNat = (F.read (BitVec.ofNat 5 a.val)).toNat * 256 + (F.read (BitVec.ofNat 5 (a.val + 1))).toNat) ∧
  (∀ F : Memory, (declared F).toNat = (F.read 0x1E).toNat * 256 + (F.read 0x1F).toNat) ∧
  (∀ F : Memory, (decodePm25 built F).toNat = (F.read 0x0C).toNat * 256 + (F.read 0x0D).toNat) ∧
  (∀ (P : Params) (F : Memory), decodePm25 P F = F.be16 P.pm25Off)

/-- R22, R55: a step changes a byte of the frame only by `LDB` of that address, `CLR` or reset. -/
def Obligations.OnlyLdbClrAndResetWriteTheFrame : Prop :=
  ∀ (s t : State) (a : Addr), step s = .next t → t.frame.read a ≠ s.frame.read a →
    ∃ (e : PortSample) (rest : List PortSample), s.pending = e :: rest ∧
      ((e.rst = true ∧ t.frame.read a = 0) ∨ (e.cmdValid = true ∧ e.cmd = 0x2000 ∧ t.frame.read a = 0) ∨
        (e.cmdValid = true ∧ s.pe = false ∧ e.cmd = 0x4000 ||| (a.setWidth 16 <<< 8) ||| (t.frame.read a).setWidth 16))

/-- R80, R92: loads in any order that leave the same last byte at every address leave the same state. -/
def Obligations.LoadOrderDoesNotMatter : Prop :=
  ∀ (l l' : List (Addr × Byte)) (s : State), s.pe = false → s.frame.wf = true → l ≠ [] → l' ≠ [] →
    (∀ a : Addr, lastLoaded a l = lastLoaded a l') →
    ∃ t, execAll (loads l) s = .next t ∧ execAll (loads l') s = .next t ∧
      ∀ a : Addr, t.frame.read a = (lastLoaded a l).getD (s.frame.read a)

/-- R80: `LDH a, v` leaves `v` as the big-endian field at `a`, and `LDF` leaves its 32 bytes. -/
def Obligations.PseudoLoadsLeaveTheirValues : Prop :=
  (∀ (s : State) (a v : Nat), s.pe = false → (AsmCommand.ldh a v).wellFormed = true →
    ∃ t, execAll (AsmCommand.ldh a v).expand s = .next t ∧ (t.frame.be16 (Fin.ofNat 31 a)).toNat = v) ∧
  (∀ (s : State) (bs : List Nat), s.pe = false → (AsmCommand.ldf bs).wellFormed = true →
    ∃ t, execAll (AsmCommand.ldf bs).expand s = .next t ∧ ∀ a : Addr, some (t.frame.read a).toNat = bs[a.toNat]?)

/-- R55: `NOP` and `AQI` do not depend on the frame, and `DEC` depends on its two bytes only. -/
def Obligations.CommandsReadOnlyTheirBytes : Prop :=
  ∀ (s : State) (F : Memory),
    (∃ t, exec .nop s = .next t ∧ exec .nop { s with frame := F } = .next { t with frame := F }) ∧
    (∃ t, exec .aqi s = .next t ∧ exec .aqi { s with frame := F } = .next { t with frame := F }) ∧
    (F.read 0x0C = s.frame.read 0x0C → F.read 0x0D = s.frame.read 0x0D →
      ∃ t, exec .dec s = .next t ∧ exec .dec { s with frame := F } = .next { t with frame := F })

/-- R105: with a header that does not match, `VAL` and `RUN` report InvalidHeader, whatever the checksum is, and depend on
nothing of the frame but the two header bytes: the checksum is not computed and the frame never decoded. -/
def Obligations.BadHeaderShortCircuits : Prop :=
  ∀ (s : State) (F : Memory), F.read 0x00 = s.frame.read 0x00 → F.read 0x01 = s.frame.read 0x01 →
    (s.frame.read 0x00 ≠ 0x42 ∨ s.frame.read 0x01 ≠ 0x4D) →
    (∃ t, exec .val s = .next t ∧ exec .val { s with frame := F } = .next { t with frame := F } ∧
      (s.pe = false → t.err = 1 ∧ t.sum = 0 ∧ t.v = false)) ∧
    (∃ t, exec .run s = .next t ∧ exec .run { s with frame := F } = .next { t with frame := F } ∧
      (s.pe = false → t.err = 1 ∧ t.sum = 0 ∧ t.pm25 = 0 ∧ t.v = false))

/-! ### The validator (spec/41_validate.md) -/

/-- R100: both signature bytes are compared; the built signature is 0x424D. -/
def Obligations.HeaderCheckComparesBothBytes : Prop :=
  (∀ (P : Params) (F : Memory),
    hdrOk P F = true ↔ (F.read 0x00).toNat = P.hdrSig.toNat / 256 ∧ (F.read 0x01).toNat = P.hdrSig.toNat % 256) ∧
  (∀ F : Memory, hdrOk built F = true ↔ F.read 0x00 = 0x42 ∧ F.read 0x01 = 0x4D)

/-- R101: the checksum is the sum of the thirty bytes 0x00..0x1D modulo 2^16, and the two checksum bytes are not in it. -/
def Obligations.ChecksumIsTheSumOfThirtyBytes : Prop :=
  ∀ F : Memory,
    (sum16 F).toNat = (∑ a ∈ Finset.range 30, (F.read (BitVec.ofNat 5 a)).toNat) % 65536 ∧
    ∀ d e : Byte, sum16 ((F.write 0x1E d).write 0x1F e) = sum16 F

/-- R102, which the spec derives from R101: the modulo never acts, and a declared checksum above 7650 never validates. -/
def Obligations.ChecksumIsThePlainSum : Prop :=
  ∀ F : Memory,
    (sum16 F).toNat = ∑ a ∈ Finset.range 30, (F.read (BitVec.ofNat 5 a)).toNat ∧
    (sum16 F).toNat ≤ 7650 ∧
    (∀ P : Params, 7650 < (declared F).toNat → validate P F ≠ .valid)

/-- R104: `validate` gives exactly one of three answers, header first. -/
def Obligations.ValidateAnswers : Prop :=
  ∀ (P : Params) (F : Memory),
    (validate P F = .invalidHeader ↔ hdrOk P F = false) ∧
    (validate P F = .checksumMismatch ↔ hdrOk P F = true ∧ sum16 F ≠ declared F) ∧
    (validate P F = .valid ↔ hdrOk P F = true ∧ sum16 F = declared F)

/-- R106, which the spec derives from R100 to R104: (a) the 552 property, (b) a change of any single byte is caught, (c) a change that keeps the header, the sum and the
declared checksum is not; swapping two summed bytes behind the header is such a change. -/
def Obligations.WhatTheChecksumCatches : Prop :=
  ∀ (P : Params) (F : Memory),
    (hdrOk P F = true → (∑ a ∈ Finset.range 30, (F.read (BitVec.ofNat 5 a)).toNat) % 65536 = 552 →
      F.read 0x1E = 0x02 → F.read 0x1F = 0x28 → validate P F = .valid) ∧
    (∀ (a : Addr) (d : Byte), validate P F = .valid → d ≠ F.read a →
      validate P (F.write a d) = if a.toNat < 2 then .invalidHeader else .checksumMismatch) ∧
    (∀ G : Memory, G.read 0x00 = F.read 0x00 → G.read 0x01 = F.read 0x01 → sum16 G = sum16 F → declared G = declared F →
      validate P G = validate P F) ∧
    (∀ a b : Addr, 2 ≤ a.toNat → a.toNat < 30 → 2 ≤ b.toNat → b.toNat < 30 →
      validate P ((F.write a (F.read b)).write b (F.read a)) = validate P F)

/-- R191, which the spec derives from R100, R104 and R35: after reset, as after `CLR`, the frame is zero bytes; for every allowed signature that frame is rejected, and with a
zero signature it would read as a concentration of 0 with index 0, "Good". -/
def Obligations.ResetFrameIsRejected : Prop :=
  (∀ a : Addr, State.reset.frame.read a = 0x00) ∧
  (∀ (P : Params) (F : Memory), (∀ a : Addr, F.read a = 0x00) →
    (P.hdrSig ≠ 0 → validate P F = .invalidHeader) ∧ (P.hdrSig = 0 → validate P F = .valid ∧ decodePm25 P F = 0)) ∧
  compute builtTable 0 = .result 0 0 ∧
  (∃ t, exec .run State.reset = .next t ∧ t.err = 1 ∧ t.st = 0x0010 ∧ t.result = none ∧ t.concentration = none)

/-! ### The AQI engine (spec/43_aqi.md) -/

/-- R131: what `tableWf` says, item by item, with R130's `u16`; the built table satisfies it, every neighbouring pair by the
`+1` form. -/
def Obligations.TableConditions : Prop :=
  (∀ t : List Band, tableWf t = true ↔
    1 ≤ t.length ∧ t.length ≤ 8 ∧ (∃ b, t[0]? = some b ∧ b.cl = 0) ∧
    (∀ b ∈ t, b.cl < b.ch ∧ b.ch < 65536 ∧ b.il ≤ b.ih ∧ b.ih ≤ 500 ∧ b.cat.toNat ≤ 5) ∧
    (∀ (i : Nat) (lower upper : Band), t[i]? = some lower → t[i + 1]? = some upper →
      (upper.cl = lower.ch + 1 ∨ upper.cl = lower.ch) ∧ lower.ih ≤ upper.il)) ∧
  tableWf builtTable = true ∧
  (∀ (i : Nat) (lower upper : Band), builtTable[i]? = some lower → builtTable[i + 1]? = some upper →
    upper.cl = lower.ch + 1)

/-- R135: for a well-formed table and a value in range, `band` is the largest index with `Cl <= v`, and its interval contains
the value; the bands of the built table for whole concentrations, which the spec derives from R132 to R134. -/
def Obligations.BandContainsTheValue : Prop :=
  (∀ (t : List Band) (v : Nat), tableWf t = true → v ≤ vmax t →
    ∃ i b, band t v = some i ∧ t[i]? = some b ∧ b.cl ≤ v ∧ v ≤ b.ch ∧
      ∀ (j : Nat) (b' : Band), t[j]? = some b' → b'.cl ≤ v → j ≤ i) ∧
  (∀ c : Nat, c ≤ 325 → band builtTable (10 * c) =
    some (if c ≤ 9 then 0 else if c ≤ 35 then 1 else if c ≤ 55 then 2 else if c ≤ 125 then 3 else if c ≤ 225 then 4 else 5)) ∧
  (∀ c : Word, 325 < c.toNat → compute builtTable c = .outOfRange)

/-- R134: above the table's highest breakpoint, and only there, the result is OutOfRange, never a clamped index; below the
lowest is impossible, which the spec derives from R131 item 2. -/
def Obligations.OutOfRangeIsAboveTheTable : Prop :=
  (∀ (t : List Band) (c : Word), tableWf t = true →
    (compute t c = .outOfRange ↔ vmax t < 10 * c.toNat) ∧ (vmax t < 10 * c.toNat ↔ cmax t < c.toNat) ∧
    (∀ b, t[0]? = some b → b.cl ≤ 10 * c.toNat)) ∧
  vmax builtTable = 3254 ∧ cmax builtTable = 325

/-- R137, which the spec derives from R136: the integer formula is the source's real formula rounded half up, for every well-formed band and every value of it;
its intermediate values fit 32 bits; on the built table no whole concentration is a tie, and the widths are R137's. -/
def Obligations.InterpolationIsExactHalfUp : Prop :=
  (∀ (b : Band) (v : Nat), b.wf = true → b.cl ≤ v → v ≤ b.ch →
    ((interp b v : Nat) : ℤ) =
      ⌊((b.ih : ℚ) - b.il) / ((b.ch : ℚ) - b.cl) * ((v : ℚ) - b.cl) + b.il + 1 / 2⌋ ∧
    (b.ih - b.il) * (v - b.cl) < 2 ^ 25 ∧ 2 * ((b.ih - b.il) * (v - b.cl)) + (b.ch - b.cl) < 2 ^ 26 + 2 ^ 16) ∧
  (∀ (c i : Nat) (b : Band), c ≤ 325 → band builtTable (10 * c) = some i → builtTable[i]? = some b →
    2 * ((b.ih - b.il) * (10 * c - b.cl)) % (2 * (b.ch - b.cl)) ≠ b.ch - b.cl ∧
    10 * c - b.cl ≤ 999 ∧ b.ih - b.il ≤ 199 ∧ (b.ih - b.il) * (10 * c - b.cl) ≤ 198005 ∧
    2 * ((b.ih - b.il) * (10 * c - b.cl)) + (b.ch - b.cl) ≤ 397009 ∧ 2 * (b.ch - b.cl) ≤ 1998)

/-- R138 (a): the index lies in its band's index range, and the ends of the band give the ends of the range. -/
def Obligations.InterpolationStaysInItsBand : Prop :=
  ∀ (b : Band) (v : Nat), b.wf = true → b.cl ≤ v → v ≤ b.ch →
    b.il ≤ interp b v ∧ interp b v ≤ b.ih ∧ interp b v ≤ 500 ∧ interp b b.cl = b.il ∧ interp b b.ch = b.ih

/-- R139: for every well-formed table `compute` is total on `u16`: above `CMAX` OutOfRange, else the interpolated index and the
category of the band of `10 * c`. -/
def Obligations.ComputeAnswers : Prop :=
  ∀ t : List Band, tableWf t = true →
    (∀ c : Word, c.toNat ≤ cmax t → ∃ i b, band t (10 * c.toNat) = some i ∧ t[i]? = some b ∧
      ∃ x : Word, compute t c = .result x b.cat ∧ x.toNat = interp b (10 * c.toNat)) ∧
    (∀ c : Word, cmax t < c.toNat → compute t c = .outOfRange)

/-- R138 (a), (b), (d), which the spec derives from R131, R135 and R136: an index is at most 500 and a category at most 5; the
index never falls when the concentration rises, within a band or across bands; every value gives a result or OutOfRange. -/
def Obligations.ComputeIsMonotone : Prop :=
  ∀ t : List Band, tableWf t = true →
    (∀ (c c' : Word) (x x' : Word) (k k' : BitVec 3), c.toNat ≤ c'.toNat → compute t c = .result x k →
      compute t c' = .result x' k' → x.toNat ≤ x'.toNat) ∧
    (∀ (c : Word) (x : Word) (k : BitVec 3), compute t c = .result x k → x.toNat ≤ 500 ∧ k.toNat ≤ 5) ∧
    (∀ c c' : Word, c.toNat ≤ c'.toNat → compute t c = .outOfRange → compute t c' = .outOfRange)

/-- The five scenarios of the source (95_test_vectors.md S1 to S5), on the machine: a `RUN` on a frame that validates and
carries the concentration shows the index and the category. -/
def Obligations.SourceScenarios : Prop :=
  ∀ s t : State, s.pe = false → validate built s.frame = .valid → exec .run s = .next t →
    (decodePm25 built s.frame = 3 → t.Shows 3 17 0) ∧ (decodePm25 built s.frame = 5 → t.Shows 5 28 0) ∧
    (decodePm25 built s.frame = 33 → t.Shows 33 96 1) ∧ (decodePm25 built s.frame = 41 → t.Shows 41 115 2) ∧
    (decodePm25 built s.frame = 101 → t.Shows 101 183 3)

/-! ### Invariants and what a result means (spec/10_state.md R34, R38) -/

/-- R34 at reset: the invariants hold in the reset state, for any parameters and whatever the host will drive. -/
def Obligations.ResetSatisfiesTheInvariants : Prop :=
  ∀ (P : Params) (host : List PortSample), StateInv P { State.reset with pending := host }

/-- R34: the invariants are kept by every step of QAQI as built. -/
def Obligations.StepKeepsTheInvariants : Prop :=
  ∀ s t : State, StateInv built s → step s = .next t → StateInv built t

/-- R34, which the spec derives from the commands' rules, for every well-formed choice of parameters: the invariants hold after reset and are kept by every step. -/
def Obligations.InvariantsForAllParameters : Prop :=
  ∀ P : Params, P.wf = true →
    (∀ host : List PortSample, StateInv P { State.reset with pending := host }) ∧
    ∀ s t : State, StateInv P s → stepAt P s = .next t → StateInv P t

/-- R38, R173 and the source's "no partial trust": in every reachable state of every well-formed QAQI, whatever the host does,
a result that is shown is the index and category computed from the concentration decoded from the frame now in the buffer,
which passed both checks; an exposed concentration is that of a validated frame; a state that shows no result holds the
invalid values. -/
def Obligations.ShownResultsAreGenuine : Prop :=
  ∀ (P : Params) (s : State), P.wf = true → Reachable P s →
    (∀ (c idx : Word) (k : BitVec 3), s.Shows c idx k →
      validate P s.frame = .valid ∧ c = decodePm25 P s.frame ∧ compute P.bpTable c = .result idx k ∧ idx.toNat ≤ 500 ∧
      k.toNat ≤ 5) ∧
    (∀ c : Word, s.concentration = some c → validate P s.frame = .valid ∧ c = decodePm25 P s.frame) ∧
    (s.result = none → s.aqi = 0xFFFF ∧ s.cat = 7) ∧ (s.concentration = none → s.pm25 = 0)

/-- R27, R36: `st_o` reads its reserved bits as zero in every state, and in every state that satisfies the invariants the
ports show the registers as they are. -/
def Obligations.PortsShowTheRegisters : Prop :=
  (∀ s : State, s.ports.st &&& 0xFC80 = 0 ∧ s.ports.cmdReady = true) ∧
  (∀ (P : Params) (s : State), StateInv P s →
    s.ports.st = s.st ∧ s.ports.sum = s.sum ∧ s.ports.pm25 = s.pm25 ∧ s.ports.aqi = s.aqi ∧ s.ports.cat = s.cat)
end

