-- ==== Sys2Proof/Laws/Flags.lean ====
section
/-! SUPPORT. The fields of `ST`: a field reads as it was last put, and putting one leaves the others alone. -/

namespace Sys2Proof.Machine

theorem getField_putField_same {st : Word} {lo n : Nat} {x : BitVec n} (h : lo + n ≤ 16) :
    getField (putField st lo n x) lo n = x := by
  apply BitVec.eq_of_getLsbD_eq
  intro i hi
  have h1 : lo + i < 16 := by omega
  simp [getField, putField, hi, h1]

theorem getField_putField_other {st : Word} {lo n lo' n' : Nat} {x : BitVec n}
    (h : lo' + n' ≤ lo ∨ lo + n ≤ lo') : getField (putField st lo n x) lo' n' = getField st lo' n' := by
  apply BitVec.eq_of_getLsbD_eq
  intro i hi
  simp only [getField, putField, BitVec.getLsbD_extractLsb', BitVec.getLsbD_or, BitVec.getLsbD_and, BitVec.getLsbD_not,
    BitVec.getLsbD_shiftLeft, BitVec.getLsbD_setWidth, BitVec.getLsbD_allOnes, hi, decide_true, Bool.true_and]
  by_cases h16 : lo' + i < 16
  · rcases h with h | h
    · have : lo' + i < lo := by omega
      simp [h16, this]
    · have h1 : ¬ (lo' + i - lo < n) := by omega
      have h2 : x.getLsbD (lo' + i - lo) = false := BitVec.getLsbD_of_ge x _ (by omega)
      simp [h16, h1, h2]
  · simp [h16, BitVec.getLsbD_of_ge st (lo' + i) (by omega)]

theorem getLsbD_eq_of_getField {x y : Word} {lo n i : Nat} (h : getField x lo n = getField y lo n) (hlo : lo ≤ i)
    (hi : i < lo + n) : x.getLsbD i = y.getLsbD i := by
  have h' := congrArg (fun z => BitVec.getLsbD z (i - lo)) h
  have hlt : i - lo < n := by omega
  have hadd : lo + (i - lo) = i := by omega
  simpa [getField, hlt, hadd] using h'

/-- A status word is its fields: the layout of 10_state.md R27 leaves no bit out. -/
theorem status_ext {x y : Word} (hv : getField x 0 1 = getField y 0 1) (hp : getField x 1 1 = getField y 1 1)
    (hr : getField x 2 1 = getField y 2 1) (hpe : getField x 3 1 = getField y 3 1) (herr : getField x 4 3 = getField y 4 3)
    (h7 : getField x 7 1 = getField y 7 1) (hpec : getField x 8 2 = getField y 8 2)
    (h10 : getField x 10 6 = getField y 10 6) : x = y := by
  apply BitVec.eq_of_getLsbD_eq
  intro i hi
  by_cases h : i < 4
  · interval_cases i
    · exact getLsbD_eq_of_getField hv (by omega) (by omega)
    · exact getLsbD_eq_of_getField hp (by omega) (by omega)
    · exact getLsbD_eq_of_getField hr (by omega) (by omega)
    · exact getLsbD_eq_of_getField hpe (by omega) (by omega)
  · by_cases h' : i < 7
    · exact getLsbD_eq_of_getField herr (by omega) (by omega)
    · by_cases h'' : i < 8
      · exact getLsbD_eq_of_getField h7 (by omega) (by omega)
      · by_cases h3 : i < 10
        · exact getLsbD_eq_of_getField hpec (by omega) (by omega)
        · exact getLsbD_eq_of_getField h10 (by omega) (by omega)

end Sys2Proof.Machine
end

