-- ==== Sys2Proof/Laws/Memory.lean ====
section
/-! SUPPORT. The frame buffer: a byte reads as it was last written, a write leaves the other bytes, every operation keeps the
canonical form, and canonical frames that read alike are equal. -/

namespace Sys2Proof.Machine

namespace Memory

@[simp] theorem lookup_nil (a : Nat) : lookup [] a = unlisted := rfl

theorem lookup_cons (k : Nat) (b : Byte) (t : Memory) (a : Nat) :
    lookup ((k, b) :: t) a = if k = a then b else lookup t a := rfl

theorem lookup_erase_same (m : Memory) (a : Nat) : (m.erase a).lookup a = unlisted := by
  induction m with
  | nil => rfl
  | cons c t ih =>
    obtain ⟨k, b⟩ := c
    by_cases h : k = a
    · simpa [erase, h] using ih
    · simpa [erase, h, lookup_cons] using ih

theorem lookup_erase_other (m : Memory) {a b : Nat} (hab : b ≠ a) : (m.erase a).lookup b = m.lookup b := by
  induction m with
  | nil => rfl
  | cons c t ih =>
    obtain ⟨k, d⟩ := c
    by_cases h : k = a
    · have hk : ¬ k = b := fun e => hab (e ▸ h)
      simpa [erase, h, lookup_cons, hab.symm] using ih
    · by_cases hk : k = b
      · have hba : ¬ b = a := hab
        simp [erase, hk, hba, lookup_cons]
      · simpa [erase, h, hk, lookup_cons] using ih

theorem erase_keys {m : Memory} {a : Nat} : ∀ c ∈ m.erase a, c.1 ≠ a := by
  intro c hc
  simpa using (List.mem_filter.mp hc).2

theorem lookup_place_same {m : Memory} {a : Nat} (d : Byte) (h : ∀ c ∈ m, c.1 ≠ a) : (m.place a d).lookup a = d := by
  induction m with
  | nil => simp [place, lookup_cons]
  | cons c t ih =>
    obtain ⟨k, b⟩ := c
    have hk : k ≠ a := h (k, b) (by simp)
    by_cases hlt : a < k
    · simp [place, hlt, lookup_cons]
    · simpa [place, hlt, lookup_cons, hk] using ih (fun c hc => h c (by simp [hc]))

theorem lookup_place_other (m : Memory) {a b : Nat} (d : Byte) (hab : b ≠ a) : (m.place a d).lookup b = m.lookup b := by
  induction m with
  | nil => simp [place, lookup_cons, hab.symm]
  | cons c t ih =>
    obtain ⟨k, e⟩ := c
    by_cases hlt : a < k
    · simp [place, hlt, lookup_cons, hab.symm]
    · simp [place, hlt, lookup_cons, ih]

theorem lookup_insert_same (m : Memory) (a : Nat) (d : Byte) : (m.insert a d).lookup a = d := by
  by_cases h : d = unlisted
  · simpa [insert, h] using lookup_erase_same m a
  · rw [insert, if_neg h, lookup_place_same d erase_keys]

theorem lookup_insert_other (m : Memory) {a b : Nat} (d : Byte) (hab : b ≠ a) :
    (m.insert a d).lookup b = m.lookup b := by
  by_cases h : d = unlisted
  · simpa [insert, h] using lookup_erase_other m hab
  · rw [insert, if_neg h, lookup_place_other _ _ hab, lookup_erase_other m hab]

/-- A byte reads as it was last written. -/
@[simp] theorem read_write_same (m : Memory) (a : Addr) (d : Byte) : (m.write a d).read a = d :=
  lookup_insert_same m a.toNat d

/-- A write leaves every other byte. -/
theorem read_write_other (m : Memory) {a b : Addr} (d : Byte) (h : b ≠ a) : (m.write a d).read b = m.read b :=
  lookup_insert_other m d (fun e => h (BitVec.eq_of_toNat_eq e))

theorem read_write (m : Memory) (a b : Addr) (d : Byte) :
    (m.write a d).read b = if b = a then d else m.read b := by
  by_cases h : b = a
  · simp [h]
  · simp [h, read_write_other]

/-- Every address of the reset frame reads 0x00. -/
@[simp] theorem read_nil (a : Addr) : read [] a = 0 := rfl

/-- Rising above a bound, entry by entry. -/
theorem risingFrom_cons {lo : Option Nat} {k : Nat} {b : Byte} {t : Memory} :
    risingFrom lo ((k, b) :: t) = true ↔ (∀ l, lo = some l → l < k) ∧ b ≠ unlisted ∧ risingFrom (some k) t = true := by
  cases lo <;> simp [risingFrom, and_assoc]

theorem risingFrom_above {lo : Nat} {m : Memory} (h : risingFrom (some lo) m = true) : ∀ c ∈ m, lo < c.1 := by
  induction m generalizing lo with
  | nil => simp
  | cons c t ih =>
    obtain ⟨k, b⟩ := c
    obtain ⟨hlo, -, ht⟩ := risingFrom_cons.mp h
    intro c hc
    rcases List.mem_cons.mp hc with rfl | hc
    · exact hlo lo rfl
    · exact (hlo lo rfl).trans (ih ht c hc)

theorem risingFrom_weaken {lo lo' : Option Nat} {m : Memory} (h : risingFrom lo m = true)
    (hle : ∀ l', lo' = some l' → ∃ l, lo = some l ∧ l' ≤ l) : risingFrom lo' m = true := by
  cases m with
  | nil => rfl
  | cons c t =>
    obtain ⟨k, b⟩ := c
    obtain ⟨hlo, hb, ht⟩ := risingFrom_cons.mp h
    refine risingFrom_cons.mpr ⟨fun l' hl' => ?_, hb, ht⟩
    obtain ⟨l, hl, hll⟩ := hle l' hl'
    exact lt_of_le_of_lt hll (hlo l hl)

theorem risingFrom_erase {lo : Option Nat} {m : Memory} (a : Nat) (h : risingFrom lo m = true) :
    risingFrom lo (m.erase a) = true := by
  induction m generalizing lo with
  | nil => rfl
  | cons c t ih =>
    obtain ⟨k, b⟩ := c
    obtain ⟨hlo, hb, ht⟩ := risingFrom_cons.mp h
    by_cases hk : k = a
    · have : erase ((k, b) :: t) a = erase t a := by simp [erase, hk]
      rw [this]
      exact risingFrom_weaken (ih ht) (fun l hl => ⟨k, rfl, (hlo l hl).le⟩)
    · have : erase ((k, b) :: t) a = (k, b) :: erase t a := by simp [erase, hk]
      rw [this]
      exact risingFrom_cons.mpr ⟨hlo, hb, ih ht⟩

theorem risingFrom_place {lo : Option Nat} {m : Memory} {a : Nat} {d : Byte} (h : risingFrom lo m = true)
    (hlo : ∀ l, lo = some l → l < a) (hd : d ≠ unlisted) (hm : ∀ c ∈ m, c.1 ≠ a) :
    risingFrom lo (m.place a d) = true := by
  induction m generalizing lo with
  | nil => exact risingFrom_cons.mpr ⟨hlo, hd, rfl⟩
  | cons c t ih =>
    obtain ⟨k, b⟩ := c
    obtain ⟨hk, hb, ht⟩ := risingFrom_cons.mp h
    by_cases hlt : a < k
    · have : place ((k, b) :: t) a d = (a, d) :: (k, b) :: t := by simp [place, hlt]
      rw [this]
      refine risingFrom_cons.mpr ⟨hlo, hd, risingFrom_cons.mpr ⟨?_, hb, ht⟩⟩
      rintro l ⟨⟩
      exact hlt
    · have : place ((k, b) :: t) a d = (k, b) :: place t a d := by simp [place, hlt]
      rw [this]
      refine risingFrom_cons.mpr ⟨hk, hb, ih ht ?_ (fun c hc => hm c (by simp [hc]))⟩
      rintro l ⟨⟩
      have hne : k ≠ a := hm (k, b) (by simp)
      omega

theorem mem_place {m : Memory} {a : Nat} {d : Byte} {c : Host.Cell} (h : c ∈ m.place a d) : c = (a, d) ∨ c ∈ m := by
  induction m with
  | nil => simpa [place] using h
  | cons e t ih =>
    obtain ⟨k, b⟩ := e
    by_cases hlt : a < k
    · simpa [place, hlt] using h
    · rcases List.mem_cons.mp (by simpa [place, hlt] using h) with h | h
      · simp [h]
      · rcases ih h with h | h <;> simp [h]

theorem wf_iff {m : Memory} : m.wf = true ↔ risingFrom none m = true ∧ ∀ c ∈ m, c.1 < 32 := by
  simp [wf]

/-- A write keeps the canonical form. -/
theorem write_wf {m : Memory} (a : Addr) (d : Byte) (h : m.wf = true) : (m.write a d).wf = true := by
  obtain ⟨hr, hk⟩ := wf_iff.mp h
  have hke : ∀ c ∈ m.erase a.toNat, c.1 < 32 := fun c hc => hk c (List.mem_filter.mp hc).1
  by_cases hd : d = unlisted
  · have : m.write a d = m.erase a.toNat := by simp [write, insert, hd]
    rw [this]
    exact wf_iff.mpr ⟨risingFrom_erase _ hr, hke⟩
  · have : m.write a d = (m.erase a.toNat).place a.toNat d := if_neg hd
    rw [this]
    refine wf_iff.mpr ⟨risingFrom_place (risingFrom_erase _ hr) (by simp) hd erase_keys, fun c hc => ?_⟩
    rcases mem_place hc with rfl | hc
    · exact a.isLt
    · exact hke c hc

/-- The reset frame is canonical. -/
@[simp] theorem nil_wf : wf [] = true := rfl

theorem lookup_eq_unlisted_of_below {m : Memory} {a : Nat} (h : ∀ c ∈ m, a < c.1) : m.lookup a = unlisted := by
  induction m with
  | nil => rfl
  | cons c t ih =>
    obtain ⟨k, b⟩ := c
    have hk : a < k := h (k, b) (by simp)
    simpa [lookup_cons, hk.ne'] using ih (fun c hc => h c (by simp [hc]))

theorem ext_of_rising {lo lo' : Option Nat} {m n : Memory} (hm : risingFrom lo m = true) (hn : risingFrom lo' n = true)
    (h : ∀ a, m.lookup a = n.lookup a) : m = n := by
  induction m generalizing lo lo' n with
  | nil =>
    cases n with
    | nil => rfl
    | cons c t =>
      obtain ⟨k, b⟩ := c
      have := h k
      simp [lookup_cons] at this
      exact absurd this.symm (risingFrom_cons.mp hn).2.1
  | cons c t ih =>
    obtain ⟨k, b⟩ := c
    obtain ⟨-, hb, ht⟩ := risingFrom_cons.mp hm
    cases n with
    | nil =>
      have := h k
      simp [lookup_cons] at this
      exact absurd this hb
    | cons c' t' =>
      obtain ⟨k', b'⟩ := c'
      obtain ⟨-, hb', ht'⟩ := risingFrom_cons.mp hn
      have hkk : k = k' := by
        rcases lt_trichotomy k k' with hlt | heq | hgt
        · have := h k
          rw [lookup_cons, if_pos rfl, lookup_eq_unlisted_of_below] at this
          · exact absurd this hb
          · intro c hc
            rcases List.mem_cons.mp hc with rfl | hc
            · exact hlt
            · exact hlt.trans (risingFrom_above ht' c hc)
        · exact heq
        · have := h k'
          rw [lookup_cons (t := t'), if_pos rfl, lookup_eq_unlisted_of_below] at this
          · exact absurd this.symm hb'
          · intro c hc
            rcases List.mem_cons.mp hc with rfl | hc
            · exact hgt
            · exact hgt.trans (risingFrom_above ht c hc)
      subst hkk
      have hbb : b = b' := by simpa [lookup_cons] using h k
      subst hbb
      have : t = t' := by
        refine ih ht ht' (fun a => ?_)
        by_cases ha : k = a
        · subst ha
          rw [lookup_eq_unlisted_of_below (risingFrom_above ht), lookup_eq_unlisted_of_below (risingFrom_above ht')]
        · simpa [lookup_cons, ha] using h a
      rw [this]

theorem lookup_eq_unlisted_of_keys {m : Memory} {a : Nat} (hk : ∀ c ∈ m, c.1 < 32) (ha : 32 ≤ a) :
    m.lookup a = unlisted := by
  induction m with
  | nil => rfl
  | cons c t ih =>
    obtain ⟨k, b⟩ := c
    have : k < 32 := hk (k, b) (by simp)
    have hne : ¬ k = a := by omega
    simpa [lookup_cons, hne] using ih (fun c hc => hk c (by simp [hc]))

/-- Canonical frames that read alike at every address are equal. -/
theorem ext_of_read {m n : Memory} (hm : m.wf = true) (hn : n.wf = true) (h : ∀ a : Addr, m.read a = n.read a) :
    m = n := by
  obtain ⟨hmr, hmk⟩ := wf_iff.mp hm
  obtain ⟨hnr, hnk⟩ := wf_iff.mp hn
  refine ext_of_rising hmr hnr (fun a => ?_)
  by_cases ha : a < 32
  · have := h (BitVec.ofNat 5 a)
    simpa [read, Nat.mod_eq_of_lt ha] using this
  · rw [lookup_eq_unlisted_of_keys hmk (by omega), lookup_eq_unlisted_of_keys hnk (by omega)]

end Memory

end Sys2Proof.Machine
end

