-- ==== Sys2Proof/Laws/State.lean ====
section
/-! SUPPORT. What each update of the state leaves and what it writes: one law per update, a conjunction with one equation per
field, so that no later proof unfolds a record update or a field of `ST`. -/

namespace Sys2Proof.Machine

/-- A one-bit field put from a truth value reads as that truth value. -/
theorem ofBool_eq_one {b : Bool} : decide (BitVec.ofBool b = 1#1) = b := by cases b <;> rfl

variable (s : State)

@[simp] theorem State.setFrame_fields (F : Memory) :
    (s.setFrame F).frame = F ∧ (s.setFrame F).sum = s.sum ∧ (s.setFrame F).pm25 = s.pm25 ∧ (s.setFrame F).aqi = s.aqi
    ∧ (s.setFrame F).cat = s.cat ∧ (s.setFrame F).st = s.st ∧ (s.setFrame F).pending = s.pending ∧ (s.setFrame F).accepted = s.accepted
    ∧ (s.setFrame F).v = s.v ∧ (s.setFrame F).p = s.p ∧ (s.setFrame F).r = s.r
    ∧ (s.setFrame F).pe = s.pe ∧ (s.setFrame F).err = s.err ∧ (s.setFrame F).pec = s.pec :=
  ⟨rfl, rfl, rfl, rfl, rfl, rfl, rfl, rfl, rfl, rfl, rfl, rfl, rfl, rfl⟩

@[simp] theorem State.setSum_fields (x : Word) :
    (s.setSum x).frame = s.frame ∧ (s.setSum x).sum = x ∧ (s.setSum x).pm25 = s.pm25 ∧ (s.setSum x).aqi = s.aqi
    ∧ (s.setSum x).cat = s.cat ∧ (s.setSum x).st = s.st ∧ (s.setSum x).pending = s.pending ∧ (s.setSum x).accepted = s.accepted
    ∧ (s.setSum x).v = s.v ∧ (s.setSum x).p = s.p ∧ (s.setSum x).r = s.r
    ∧ (s.setSum x).pe = s.pe ∧ (s.setSum x).err = s.err ∧ (s.setSum x).pec = s.pec :=
  ⟨rfl, rfl, rfl, rfl, rfl, rfl, rfl, rfl, rfl, rfl, rfl, rfl, rfl, rfl⟩

@[simp] theorem State.setPm25_fields (x : Word) :
    (s.setPm25 x).frame = s.frame ∧ (s.setPm25 x).sum = s.sum ∧ (s.setPm25 x).pm25 = x ∧ (s.setPm25 x).aqi = s.aqi
    ∧ (s.setPm25 x).cat = s.cat ∧ (s.setPm25 x).st = s.st ∧ (s.setPm25 x).pending = s.pending ∧ (s.setPm25 x).accepted = s.accepted
    ∧ (s.setPm25 x).v = s.v ∧ (s.setPm25 x).p = s.p ∧ (s.setPm25 x).r = s.r
    ∧ (s.setPm25 x).pe = s.pe ∧ (s.setPm25 x).err = s.err ∧ (s.setPm25 x).pec = s.pec :=
  ⟨rfl, rfl, rfl, rfl, rfl, rfl, rfl, rfl, rfl, rfl, rfl, rfl, rfl, rfl⟩

@[simp] theorem State.setAqi_fields (x : Word) :
    (s.setAqi x).frame = s.frame ∧ (s.setAqi x).sum = s.sum ∧ (s.setAqi x).pm25 = s.pm25 ∧ (s.setAqi x).aqi = x
    ∧ (s.setAqi x).cat = s.cat ∧ (s.setAqi x).st = s.st ∧ (s.setAqi x).pending = s.pending ∧ (s.setAqi x).accepted = s.accepted
    ∧ (s.setAqi x).v = s.v ∧ (s.setAqi x).p = s.p ∧ (s.setAqi x).r = s.r
    ∧ (s.setAqi x).pe = s.pe ∧ (s.setAqi x).err = s.err ∧ (s.setAqi x).pec = s.pec :=
  ⟨rfl, rfl, rfl, rfl, rfl, rfl, rfl, rfl, rfl, rfl, rfl, rfl, rfl, rfl⟩

@[simp] theorem State.setCat_fields (c : BitVec 3) :
    (s.setCat c).frame = s.frame ∧ (s.setCat c).sum = s.sum ∧ (s.setCat c).pm25 = s.pm25 ∧ (s.setCat c).aqi = s.aqi
    ∧ (s.setCat c).cat = c ∧ (s.setCat c).st = s.st ∧ (s.setCat c).pending = s.pending ∧ (s.setCat c).accepted = s.accepted
    ∧ (s.setCat c).v = s.v ∧ (s.setCat c).p = s.p ∧ (s.setCat c).r = s.r
    ∧ (s.setCat c).pe = s.pe ∧ (s.setCat c).err = s.err ∧ (s.setCat c).pec = s.pec :=
  ⟨rfl, rfl, rfl, rfl, rfl, rfl, rfl, rfl, rfl, rfl, rfl, rfl, rfl, rfl⟩

@[simp] theorem State.setPending_fields (l : List PortSample) :
    (s.setPending l).frame = s.frame ∧ (s.setPending l).sum = s.sum ∧ (s.setPending l).pm25 = s.pm25 ∧ (s.setPending l).aqi = s.aqi
    ∧ (s.setPending l).cat = s.cat ∧ (s.setPending l).st = s.st ∧ (s.setPending l).pending = l ∧ (s.setPending l).accepted = s.accepted
    ∧ (s.setPending l).v = s.v ∧ (s.setPending l).p = s.p ∧ (s.setPending l).r = s.r
    ∧ (s.setPending l).pe = s.pe ∧ (s.setPending l).err = s.err ∧ (s.setPending l).pec = s.pec :=
  ⟨rfl, rfl, rfl, rfl, rfl, rfl, rfl, rfl, rfl, rfl, rfl, rfl, rfl, rfl⟩

@[simp] theorem State.setAccepted_fields (n : Nat) :
    (s.setAccepted n).frame = s.frame ∧ (s.setAccepted n).sum = s.sum ∧ (s.setAccepted n).pm25 = s.pm25 ∧ (s.setAccepted n).aqi = s.aqi
    ∧ (s.setAccepted n).cat = s.cat ∧ (s.setAccepted n).st = s.st ∧ (s.setAccepted n).pending = s.pending ∧ (s.setAccepted n).accepted = n
    ∧ (s.setAccepted n).v = s.v ∧ (s.setAccepted n).p = s.p ∧ (s.setAccepted n).r = s.r
    ∧ (s.setAccepted n).pe = s.pe ∧ (s.setAccepted n).err = s.err ∧ (s.setAccepted n).pec = s.pec :=
  ⟨rfl, rfl, rfl, rfl, rfl, rfl, rfl, rfl, rfl, rfl, rfl, rfl, rfl, rfl⟩

@[simp] theorem State.setV_registers (b : Bool) :
    (s.setV b).frame = s.frame ∧ (s.setV b).sum = s.sum ∧ (s.setV b).pm25 = s.pm25 ∧ (s.setV b).aqi = s.aqi
    ∧ (s.setV b).cat = s.cat ∧ (s.setV b).pending = s.pending ∧ (s.setV b).accepted = s.accepted :=
  ⟨rfl, rfl, rfl, rfl, rfl, rfl, rfl⟩

@[simp] theorem State.setV_status (b : Bool) :
    (s.setV b).v = b ∧ (s.setV b).p = s.p ∧ (s.setV b).r = s.r
    ∧ (s.setV b).pe = s.pe ∧ (s.setV b).err = s.err ∧ (s.setV b).pec = s.pec
    ∧ getField (s.setV b).st 7 1 = getField s.st 7 1 ∧ getField (s.setV b).st 10 6 = getField s.st 10 6 := by
  simp [State.setV, State.v, State.p, State.r, State.pe, State.err, State.pec, getField_putField_same, getField_putField_other, ofBool_eq_one]

@[simp] theorem State.setP_registers (b : Bool) :
    (s.setP b).frame = s.frame ∧ (s.setP b).sum = s.sum ∧ (s.setP b).pm25 = s.pm25 ∧ (s.setP b).aqi = s.aqi
    ∧ (s.setP b).cat = s.cat ∧ (s.setP b).pending = s.pending ∧ (s.setP b).accepted = s.accepted :=
  ⟨rfl, rfl, rfl, rfl, rfl, rfl, rfl⟩

@[simp] theorem State.setP_status (b : Bool) :
    (s.setP b).v = s.v ∧ (s.setP b).p = b ∧ (s.setP b).r = s.r
    ∧ (s.setP b).pe = s.pe ∧ (s.setP b).err = s.err ∧ (s.setP b).pec = s.pec
    ∧ getField (s.setP b).st 7 1 = getField s.st 7 1 ∧ getField (s.setP b).st 10 6 = getField s.st 10 6 := by
  simp [State.setP, State.v, State.p, State.r, State.pe, State.err, State.pec, getField_putField_same, getField_putField_other, ofBool_eq_one]

@[simp] theorem State.setR_registers (b : Bool) :
    (s.setR b).frame = s.frame ∧ (s.setR b).sum = s.sum ∧ (s.setR b).pm25 = s.pm25 ∧ (s.setR b).aqi = s.aqi
    ∧ (s.setR b).cat = s.cat ∧ (s.setR b).pending = s.pending ∧ (s.setR b).accepted = s.accepted :=
  ⟨rfl, rfl, rfl, rfl, rfl, rfl, rfl⟩

@[simp] theorem State.setR_status (b : Bool) :
    (s.setR b).v = s.v ∧ (s.setR b).p = s.p ∧ (s.setR b).r = b
    ∧ (s.setR b).pe = s.pe ∧ (s.setR b).err = s.err ∧ (s.setR b).pec = s.pec
    ∧ getField (s.setR b).st 7 1 = getField s.st 7 1 ∧ getField (s.setR b).st 10 6 = getField s.st 10 6 := by
  simp [State.setR, State.v, State.p, State.r, State.pe, State.err, State.pec, getField_putField_same, getField_putField_other, ofBool_eq_one]

@[simp] theorem State.setPe_registers (b : Bool) :
    (s.setPe b).frame = s.frame ∧ (s.setPe b).sum = s.sum ∧ (s.setPe b).pm25 = s.pm25 ∧ (s.setPe b).aqi = s.aqi
    ∧ (s.setPe b).cat = s.cat ∧ (s.setPe b).pending = s.pending ∧ (s.setPe b).accepted = s.accepted :=
  ⟨rfl, rfl, rfl, rfl, rfl, rfl, rfl⟩

@[simp] theorem State.setPe_status (b : Bool) :
    (s.setPe b).v = s.v ∧ (s.setPe b).p = s.p ∧ (s.setPe b).r = s.r
    ∧ (s.setPe b).pe = b ∧ (s.setPe b).err = s.err ∧ (s.setPe b).pec = s.pec
    ∧ getField (s.setPe b).st 7 1 = getField s.st 7 1 ∧ getField (s.setPe b).st 10 6 = getField s.st 10 6 := by
  simp [State.setPe, State.v, State.p, State.r, State.pe, State.err, State.pec, getField_putField_same, getField_putField_other, ofBool_eq_one]

@[simp] theorem State.setErr_registers (o : DataOutcome) :
    (s.setErr o).frame = s.frame ∧ (s.setErr o).sum = s.sum ∧ (s.setErr o).pm25 = s.pm25 ∧ (s.setErr o).aqi = s.aqi
    ∧ (s.setErr o).cat = s.cat ∧ (s.setErr o).pending = s.pending ∧ (s.setErr o).accepted = s.accepted :=
  ⟨rfl, rfl, rfl, rfl, rfl, rfl, rfl⟩

@[simp] theorem State.setErr_status (o : DataOutcome) :
    (s.setErr o).v = s.v ∧ (s.setErr o).p = s.p ∧ (s.setErr o).r = s.r
    ∧ (s.setErr o).pe = s.pe ∧ (s.setErr o).err = o.code ∧ (s.setErr o).pec = s.pec
    ∧ getField (s.setErr o).st 7 1 = getField s.st 7 1 ∧ getField (s.setErr o).st 10 6 = getField s.st 10 6 := by
  simp [State.setErr, State.v, State.p, State.r, State.pe, State.err, State.pec, getField_putField_same, getField_putField_other]

@[simp] theorem State.setPec_registers (e : ProtocolError) :
    (s.setPec e).frame = s.frame ∧ (s.setPec e).sum = s.sum ∧ (s.setPec e).pm25 = s.pm25 ∧ (s.setPec e).aqi = s.aqi
    ∧ (s.setPec e).cat = s.cat ∧ (s.setPec e).pending = s.pending ∧ (s.setPec e).accepted = s.accepted :=
  ⟨rfl, rfl, rfl, rfl, rfl, rfl, rfl⟩

@[simp] theorem State.setPec_status (e : ProtocolError) :
    (s.setPec e).v = s.v ∧ (s.setPec e).p = s.p ∧ (s.setPec e).r = s.r
    ∧ (s.setPec e).pe = s.pe ∧ (s.setPec e).err = s.err ∧ (s.setPec e).pec = e.code
    ∧ getField (s.setPec e).st 7 1 = getField s.st 7 1 ∧ getField (s.setPec e).st 10 6 = getField s.st 10 6 := by
  simp [State.setPec, State.v, State.p, State.r, State.pe, State.err, State.pec, getField_putField_same, getField_putField_other]

/-- Two states whose registers, whose fields of `ST` and whose host side agree are one state. -/
theorem State.ext_fields {s t : State} (hf : s.frame = t.frame) (hs : s.sum = t.sum) (hp : s.pm25 = t.pm25)
    (ha : s.aqi = t.aqi) (hc : s.cat = t.cat) (hpe : s.pending = t.pending) (hac : s.accepted = t.accepted)
    (hst : s.st = t.st) : s = t := by
  cases s; cases t; simp_all

end Sys2Proof.Machine
end

