-- ==== Sys2Proof/Laws/Ops.lean ====
section
/-! SUPPORT. What each shared operation and each body can do, said once: the fields after it, or the cases of its answer. -/

namespace Sys2Proof.Machine

variable (s : State)

/-- `invalidate_from(aqi)` (10_state.md R33), field by field. -/
@[simp] theorem invalidateFrom_aqi_fields :
    (invalidateFrom .aqi s).frame = s.frame ∧ (invalidateFrom .aqi s).sum = s.sum ∧ (invalidateFrom .aqi s).pm25 = s.pm25
    ∧ (invalidateFrom .aqi s).aqi = Config.aqiInvalid ∧ (invalidateFrom .aqi s).cat = Config.catInvalid ∧ (invalidateFrom .aqi s).pending = s.pending
    ∧ (invalidateFrom .aqi s).accepted = s.accepted ∧ (invalidateFrom .aqi s).v = s.v ∧ (invalidateFrom .aqi s).p = s.p
    ∧ (invalidateFrom .aqi s).r = false ∧ (invalidateFrom .aqi s).pe = s.pe ∧ (invalidateFrom .aqi s).err = s.err
    ∧ (invalidateFrom .aqi s).pec = s.pec ∧ getField (invalidateFrom .aqi s).st 7 1 = getField s.st 7 1 ∧ getField (invalidateFrom .aqi s).st 10 6 = getField s.st 10 6 := by
  simp [invalidateFrom, invalidateAqi]

/-- `invalidate_from(dec)` (10_state.md R33), field by field. -/
@[simp] theorem invalidateFrom_dec_fields :
    (invalidateFrom .dec s).frame = s.frame ∧ (invalidateFrom .dec s).sum = s.sum ∧ (invalidateFrom .dec s).pm25 = 0
    ∧ (invalidateFrom .dec s).aqi = Config.aqiInvalid ∧ (invalidateFrom .dec s).cat = Config.catInvalid ∧ (invalidateFrom .dec s).pending = s.pending
    ∧ (invalidateFrom .dec s).accepted = s.accepted ∧ (invalidateFrom .dec s).v = s.v ∧ (invalidateFrom .dec s).p = false
    ∧ (invalidateFrom .dec s).r = false ∧ (invalidateFrom .dec s).pe = s.pe ∧ (invalidateFrom .dec s).err = s.err
    ∧ (invalidateFrom .dec s).pec = s.pec ∧ getField (invalidateFrom .dec s).st 7 1 = getField s.st 7 1 ∧ getField (invalidateFrom .dec s).st 10 6 = getField s.st 10 6 := by
  simp [invalidateFrom, invalidateAqi, invalidateDec]

/-- `invalidate_from(val)` (10_state.md R33), field by field. -/
@[simp] theorem invalidateFrom_val_fields :
    (invalidateFrom .val s).frame = s.frame ∧ (invalidateFrom .val s).sum = 0 ∧ (invalidateFrom .val s).pm25 = 0
    ∧ (invalidateFrom .val s).aqi = Config.aqiInvalid ∧ (invalidateFrom .val s).cat = Config.catInvalid ∧ (invalidateFrom .val s).pending = s.pending
    ∧ (invalidateFrom .val s).accepted = s.accepted ∧ (invalidateFrom .val s).v = false ∧ (invalidateFrom .val s).p = false
    ∧ (invalidateFrom .val s).r = false ∧ (invalidateFrom .val s).pe = s.pe ∧ (invalidateFrom .val s).err = s.err
    ∧ (invalidateFrom .val s).pec = s.pec ∧ getField (invalidateFrom .val s).st 7 1 = getField s.st 7 1 ∧ getField (invalidateFrom .val s).st 10 6 = getField s.st 10 6 := by
  simp [invalidateFrom, invalidateAqi, invalidateDec, invalidateVal]

/-- Reset (10_state.md R35), field by field. -/
@[simp] theorem resetAll_fields :
    (resetAll s).frame = [] ∧ (resetAll s).sum = 0 ∧ (resetAll s).pm25 = 0
    ∧ (resetAll s).aqi = Config.aqiInvalid ∧ (resetAll s).cat = Config.catInvalid ∧ (resetAll s).pending = s.pending
    ∧ (resetAll s).accepted = s.accepted ∧ (resetAll s).v = false ∧ (resetAll s).p = false
    ∧ (resetAll s).r = false ∧ (resetAll s).pe = false ∧ (resetAll s).err = 0
    ∧ (resetAll s).pec = 0 ∧ getField (resetAll s).st 7 1 = 0 ∧ getField (resetAll s).st 10 6 = 0 :=
  ⟨rfl, rfl, rfl, rfl, rfl, rfl, rfl,
    (by decide : State.reset.v = false), (by decide : State.reset.p = false), (by decide : State.reset.r = false),
    (by decide : State.reset.pe = false), (by decide : State.reset.err = 0), (by decide : State.reset.pec = 0),
    (by decide : getField 0 7 1 = 0), (by decide : getField 0 10 6 = 0)⟩

theorem resetAll_st : (resetAll s).st = 0 := rfl

/-- Raising a protocol error (60_exceptions.md R175), field by field. -/
@[simp] theorem raiseProtocolError_fields (e : ProtocolError) :
    (raiseProtocolError e s).frame = s.frame ∧ (raiseProtocolError e s).sum = s.sum ∧ (raiseProtocolError e s).pm25 = s.pm25
    ∧ (raiseProtocolError e s).aqi = s.aqi ∧ (raiseProtocolError e s).cat = s.cat ∧ (raiseProtocolError e s).pending = s.pending
    ∧ (raiseProtocolError e s).accepted = s.accepted ∧ (raiseProtocolError e s).v = s.v ∧ (raiseProtocolError e s).p = s.p
    ∧ (raiseProtocolError e s).r = s.r ∧ (raiseProtocolError e s).pe = true ∧ (raiseProtocolError e s).err = s.err
    ∧ (raiseProtocolError e s).pec = e.code ∧ getField (raiseProtocolError e s).st 7 1 = getField s.st 7 1 ∧ getField (raiseProtocolError e s).st 10 6 = getField s.st 10 6 := by
  simp [raiseProtocolError]

/-- While `PE = 1` a command other than `CLR` does nothing (60_exceptions.md R176). -/
theorem unlessProtocolError_of_pe {body : State → State} {s : State} (h : s.pe = true) :
    unlessProtocolError body s = s := by simp [unlessProtocolError, h]

/-- While `PE = 0` it is its body (40_frame_control.md R93). -/
theorem unlessProtocolError_of_not_pe {body : State → State} {s : State} (h : s.pe = false) :
    unlessProtocolError body s = body s := by simp [unlessProtocolError, h]

/-- The three outcomes of `VAL` (41_validate.md R108). -/
theorem bodyVal_cases (P : Params) (s : State) :
    (hdrOk P s.frame = false ∧ bodyVal P s = (invalidateFrom .val s).setErr .invalidHeader) ∨
    (hdrOk P s.frame = true ∧ sum16 s.frame ≠ declared s.frame ∧
      bodyVal P s = ((invalidateFrom .val s).setSum (sum16 s.frame)).setErr .checksumMismatch) ∨
    (hdrOk P s.frame = true ∧ sum16 s.frame = declared s.frame ∧
      bodyVal P s = (((invalidateFrom .val s).setSum (sum16 s.frame)).setV true).setErr .none) := by
  by_cases h : hdrOk P s.frame = true
  · by_cases hs : sum16 s.frame = declared s.frame
    · simp [bodyVal, h, hs]
    · simp [bodyVal, h, hs]
  · simp [bodyVal, h]

/-- The two outcomes of `DEC` (42_decode.md R122). -/
theorem bodyDec_cases (P : Params) (s : State) :
    (s.v = false ∧ bodyDec P s = raiseProtocolError .notValidated s) ∨
    (s.v = true ∧
      bodyDec P s = (((invalidateFrom .aqi s).setPm25 (decodePm25 P s.frame)).setP true).setErr .none) := by
  cases h : s.v <;> simp [bodyDec, h]

/-- The three outcomes of `AQI` (43_aqi.md R140). -/
theorem bodyAqi_cases (P : Params) (s : State) :
    (s.p = false ∧ bodyAqi P s = raiseProtocolError .noConcentration s) ∨
    (s.p = true ∧ compute P.bpTable s.pm25 = .outOfRange ∧
      bodyAqi P s = (invalidateFrom .aqi s).setErr .outOfRange) ∨
    (∃ idx cat, s.p = true ∧ compute P.bpTable s.pm25 = .result idx cat ∧
      bodyAqi P s = ((((invalidateFrom .aqi s).setAqi idx).setCat cat).setR true).setErr .none) := by
  cases h : s.p
  · simp [bodyAqi, h]
  · cases hc : compute P.bpTable s.pm25 <;> simp [bodyAqi, h, hc]

/-- `RUN` stops after a validation that fails (44_pipeline.md R160). -/
theorem bodyRun_of_not_v {P : Params} {s : State} (h : (bodyVal P s).v = false) : bodyRun P s = bodyVal P s := by
  simp [bodyRun, h]

/-- `RUN` goes on after a validation that succeeds (44_pipeline.md R160). -/
theorem bodyRun_of_v {P : Params} {s : State} (h : (bodyVal P s).v = true) :
    bodyRun P s = bodyAqi P (bodyDec P (bodyVal P s)) := by
  simp [bodyRun, h]

/-- Every meaning answers a next state: its effect at the built parameters. -/
theorem exec_eq_effectAt (i : Instr) (s : State) : exec i s = .next (effectAt built i s) := by cases i <;> rfl

/-- The parameters QAQI is built with are well-formed (00_scope.md R5, 43_aqi.md R131). -/
theorem built_wf : built.wf = true := by decide

/-- What the host's next sample can be. -/
theorem fetch_cases (s : State) :
    (s.pending = [] ∧ fetch s = .idle s) ∨
    (∃ e rest, s.pending = e :: rest ∧ e.rst = true ∧ fetch s = .reset (s.setPending rest)) ∨
    (∃ e rest, s.pending = e :: rest ∧ e.rst = false ∧ e.cmdValid = false ∧ fetch s = .idle (s.setPending rest)) ∨
    (∃ e rest, s.pending = e :: rest ∧ e.rst = false ∧ e.cmdValid = true ∧
      fetch s = .word e.cmd (acceptWord (s.setPending rest))) := by
  cases h : s.pending with
  | nil => simp [fetch, h]
  | cons e rest => cases hr : e.rst <;> cases hv : e.cmdValid <;> simp [fetch, h, hr, hv]

/-- Everything one step can be, for well-formed parameters: idle, reset, a command, an illegal word. -/
theorem stepAt_cases {P : Params} (hP : P.wf = true) (s : State) :
    (∃ l, stepAt P s = .next (s.setPending l)) ∨
    (∃ l, stepAt P s = .next (resetAll (s.setPending l))) ∨
    (∃ l i, stepAt P s = .next (effectAt P i (acceptWord (s.setPending l)))) ∨
    (∃ l, stepAt P s = .next (unlessProtocolError bodyIllegal (acceptWord (s.setPending l)))) := by
  rcases fetch_cases s with ⟨hn, h⟩ | ⟨e, rest, -, -, h⟩ | ⟨e, rest, -, -, -, h⟩ | ⟨e, rest, -, -, -, h⟩
  · exact .inl ⟨s.pending, by simp [stepAt, hP, stepWith, h, State.setPending]⟩
  · exact .inr (.inl ⟨rest, by simp [stepAt, hP, stepWith, h]⟩)
  · exact .inl ⟨rest, by simp [stepAt, hP, stepWith, h]⟩
  · cases hd : decode e.cmd with
    | cmd i => exact .inr (.inr (.inl ⟨rest, i, by simp [stepAt, hP, stepWith, h, hd, execAt]⟩))
    | illegal why => exact .inr (.inr (.inr ⟨rest, by simp [stepAt, hP, stepWith, h, hd, execIllegal]⟩))

end Sys2Proof.Machine
end

