-- ==== Sys2Proof/Laws/Frames.lean ====
section
/-! SUPPORT. What stays as it was: the bits of `ST` outside a field, and the frame and the host's side under every body. -/

namespace Sys2Proof.Machine

/-- Putting a field leaves every bit outside a mask that covers the field. -/
theorem putField_outside {st m : Word} {lo n : Nat} {x : BitVec n}
    (h : ∀ i < 16, lo ≤ i → i < lo + n → m.getLsbD i = true) : putField st lo n x &&& ~~~m = st &&& ~~~m := by
  apply BitVec.eq_of_getLsbD_eq
  intro i hi
  simp only [putField, BitVec.getLsbD_or, BitVec.getLsbD_and, BitVec.getLsbD_not, BitVec.getLsbD_shiftLeft,
    BitVec.getLsbD_setWidth, BitVec.getLsbD_allOnes, hi, decide_true, Bool.true_and]
  by_cases h1 : i < lo
  · simp [h1]
  · by_cases h2 : i < lo + n
    · simp [h i hi (by omega) h2]
    · have hn : ¬ i - lo < n := by omega
      have hx : x.getLsbD (i - lo) = false := BitVec.getLsbD_of_ge x _ (by omega)
      simp [h1, hn, hx]

/-- `VAL` only reads the frame, and leaves `PE`, `PEC` and the host alone. -/
theorem bodyVal_keeps (P : Params) (s : State) :
    (bodyVal P s).frame = s.frame ∧ (bodyVal P s).pending = s.pending ∧ (bodyVal P s).accepted = s.accepted ∧
    (bodyVal P s).pe = s.pe ∧ (bodyVal P s).pec = s.pec ∧ getField (bodyVal P s).st 7 1 = getField s.st 7 1 ∧
    getField (bodyVal P s).st 10 6 = getField s.st 10 6 := by
  rcases bodyVal_cases P s with ⟨-, h⟩ | ⟨-, -, h⟩ | ⟨-, -, h⟩ <;> rw [h] <;> simp

/-- `DEC` only reads the frame, and leaves `V`, `SUM` and the host alone. -/
theorem bodyDec_keeps (P : Params) (s : State) :
    (bodyDec P s).frame = s.frame ∧ (bodyDec P s).pending = s.pending ∧ (bodyDec P s).accepted = s.accepted ∧
    (bodyDec P s).v = s.v ∧ (bodyDec P s).sum = s.sum ∧ getField (bodyDec P s).st 7 1 = getField s.st 7 1 ∧
    getField (bodyDec P s).st 10 6 = getField s.st 10 6 := by
  rcases bodyDec_cases P s with ⟨-, h⟩ | ⟨-, h⟩ <;> rw [h] <;> simp

/-- `AQI` does not touch the frame, and leaves `V`, `P`, `SUM`, `PM25` and the host alone. -/
theorem bodyAqi_keeps (P : Params) (s : State) :
    (bodyAqi P s).frame = s.frame ∧ (bodyAqi P s).pending = s.pending ∧ (bodyAqi P s).accepted = s.accepted ∧
    (bodyAqi P s).v = s.v ∧ (bodyAqi P s).p = s.p ∧ (bodyAqi P s).sum = s.sum ∧ (bodyAqi P s).pm25 = s.pm25 ∧
    getField (bodyAqi P s).st 7 1 = getField s.st 7 1 ∧ getField (bodyAqi P s).st 10 6 = getField s.st 10 6 := by
  rcases bodyAqi_cases P s with ⟨-, h⟩ | ⟨-, -, h⟩ | ⟨_, _, -, -, h⟩ <;> rw [h] <;> simp

/-- `RUN` only reads the frame and leaves the host alone. -/
theorem bodyRun_keeps (P : Params) (s : State) :
    (bodyRun P s).frame = s.frame ∧ (bodyRun P s).pending = s.pending ∧ (bodyRun P s).accepted = s.accepted := by
  obtain ⟨hf, hp, ha, -⟩ := bodyVal_keeps P s
  cases hv : (bodyVal P s).v
  · rw [bodyRun_of_not_v hv]
    exact ⟨hf, hp, ha⟩
  · rw [bodyRun_of_v hv]
    obtain ⟨hf', hp', ha', -⟩ := bodyDec_keeps P (bodyVal P s)
    obtain ⟨hf'', hp'', ha'', -⟩ := bodyAqi_keeps P (bodyDec P (bodyVal P s))
    exact ⟨hf''.trans (hf'.trans hf), hp''.trans (hp'.trans hp), ha''.trans (ha'.trans ha)⟩

/-- No command touches the host's side. -/
theorem effectAt_keeps_host (P : Params) (i : Instr) (s : State) :
    (effectAt P i s).pending = s.pending ∧ (effectAt P i s).accepted = s.accepted := by
  have hv := bodyVal_keeps P s
  have hd := bodyDec_keeps P s
  have ha := bodyAqi_keeps P s
  have hr := bodyRun_keeps P s
  cases i <;> simp only [effectAt, unlessProtocolError] <;> (try split) <;>
    simp [bodyNop, bodyClr, bodyLdb, hv, hd, ha, hr]

/-- While `PE = 1` a command other than `CLR` has no effect (60_exceptions.md R176). -/
theorem effectAt_of_pe {P : Params} {i : Instr} {s : State} (h : s.pe = true) (hi : i ≠ .clr) : effectAt P i s = s := by
  cases i <;> first | exact absurd rfl hi | exact unlessProtocolError_of_pe h

end Sys2Proof.Machine
end

