-- ==== Sys2Proof/Laws/PerInstr.lean ====
section
/-! SUPPORT. Statements about every instruction as syntax, one lemma per constructor: the fields of its word. -/

namespace Sys2Proof.Laws

/-- The word's `OP` field is the command's opcode of spec/30_encoding.md R72, and a format-N command has zero below it. -/
def WordFields.Statement (i : Instr) : Prop :=
  opField (encode i) = i.op ∧ ((∀ a d, i ≠ .ldb a d) → lowField (encode i) = 0)

theorem WordFields.nop : WordFields.Statement .nop := ⟨by decide, fun _ => by decide⟩

theorem WordFields.clr : WordFields.Statement .clr := ⟨by decide, fun _ => by decide⟩

theorem WordFields.ldb (addr : Addr) (data : Byte) : WordFields.Statement (.ldb addr data) := by
  refine ⟨?_, fun h => absurd rfl (h addr data)⟩
  apply BitVec.eq_of_getLsbD_eq
  intro i hi
  have hlt : ¬ 13 + i < 13 := by omega
  simp only [opField, encode, Instr.op, Instr.low, BitVec.getLsbD_extractLsb', BitVec.getLsbD_append]
  simp [hi, hlt]

theorem WordFields.val : WordFields.Statement .val := ⟨by decide, fun _ => by decide⟩

theorem WordFields.dec : WordFields.Statement .dec := ⟨by decide, fun _ => by decide⟩

theorem WordFields.aqi : WordFields.Statement .aqi := ⟨by decide, fun _ => by decide⟩

theorem WordFields.run : WordFields.Statement .run := ⟨by decide, fun _ => by decide⟩

end Sys2Proof.Laws
end

