-- ==== Sys2Proof/Tests/Slice0.lean ====
section
/-! SUPPORT. The model's own tests. Expected values are the vectors of spec/95_test_vectors.md (named in each comment) or are
calculated by hand from the rule named; the witnesses show that the hypotheses of the obligations can be met, clause by
clause. -/

open Sys2Proof Sys2Proof.Machine

namespace Sys2Proof.Tests

/-! ### Small states -/

/-- A frame with the given bytes from address 0 on. -/
def frameOf (bs : List Nat) : Memory :=
  (bs.zipIdx).foldl (fun m x => m.write (BitVec.ofNat 5 x.2) (BitVec.ofNat 8 x.1)) []

/-- Frame A of 95_test_vectors.md section 1.2. -/
def frameA : Memory :=
  frameOf [0x42, 0x4D, 0x00, 0x1C, 0x00, 0x02, 0x00, 0x03, 0x00, 0x04, 0x00, 0x02, 0x00, 0x03, 0x00, 0x04, 0x00, 0xC8, 0x00, 0x3C,
    0x00, 0x0A, 0x00, 0x02, 0x00, 0x00, 0x00, 0x00, 0x5B, 0x00, 0x02, 0x28]

/-- The frames of 95_test_vectors.md section 2.6: `42 4D 00 1C`, zeros, the concentration, the checksum 171 + its bytes. -/
def frameFor (c : Nat) : Memory :=
  let sum := 171 + c / 256 + c % 256
  [(0x00, 0x42), (0x01, 0x4D), (0x03, 0x1C), (0x0C, c / 256), (0x0D, c % 256), (0x1E, sum / 256), (0x1F, sum % 256)].foldl
    (fun (m : Memory) x => m.write (BitVec.ofNat 5 x.1) (BitVec.ofNat 8 x.2)) []

/-- A loaded frame before any pipeline command. -/
def loaded (F : Memory) : State := { State.reset with frame := F }

/-- The five registers in the order of 95_test_vectors.md: `ST SUM PM25 AQI CAT`. -/
def regs (s : State) : Word × Word × Word × Word × BitVec 3 := (s.st, s.sum, s.pm25, s.aqi, s.cat)

/-- The registers after an outcome, where it is a next state. -/
def regsAfter (o : Host.Outcome State Fault Refusal) : Option (Word × Word × Word × Word × BitVec 3) :=
  match o with
  | .next s => some (regs s)
  | .fault _ => none
  | .refused _ => none

/-- The state after an outcome, where it is a next state. -/
def stateAfter (o : Host.Outcome State Fault Refusal) : Option State :=
  match o with
  | .next s => some s
  | .fault _ => none
  | .refused _ => none

/-- A state with the given registers over a frame. -/
def withRegs (F : Memory) (st sum pm25 aqi : Word) (cat : BitVec 3) : State :=
  { State.reset with frame := F, st := st, sum := sum, pm25 := pm25, aqi := aqi, cat := cat }

/-! ### Decoding: words written out from 30_encoding.md R72 (V-ENC-1 to V-ENC-17) -/

theorem test_decode_nop : decode 0b0000000000000000 = .cmd .nop := by decide
theorem test_decode_clr : decode 0b0010000000000000 = .cmd .clr := by decide
theorem test_decode_ldb : decode 0b0100110100000011 = .cmd (.ldb 0x0D 0x03) := by decide
theorem test_decode_ldb_edges :
    decode 0x4000 = .cmd (.ldb 0x00 0x00) ∧ decode 0x5F28 = .cmd (.ldb 0x1F 0x28) ∧ decode 0x5FFF = .cmd (.ldb 0x1F 0xFF) := by
  decide
theorem test_decode_val : decode 0b0110000000000000 = .cmd .val := by decide
theorem test_decode_dec : decode 0b1000000000000000 = .cmd .dec := by decide
theorem test_decode_aqi : decode 0b1010000000000000 = .cmd .aqi := by decide
theorem test_decode_run : decode 0b1100000000000000 = .cmd .run := by decide
theorem test_decode_illegal :
    decode 0x0001 = .illegal .nonzeroField ∧ decode 0x2001 = .illegal .nonzeroField ∧ decode 0x6100 = .illegal .nonzeroField ∧
    decode 0xDFFF = .illegal .nonzeroField ∧ decode 0xE000 = .illegal .reservedOpcode ∧
    decode 0xFFFF = .illegal .reservedOpcode := by decide
theorem test_encode_ldb : encode (.ldb 0x0D 0x03) = 0x4D03 := by decide
theorem test_table_words :
    decodeTableWord 16 0x0000 = some .nop ∧ decodeTableWord 16 0x2000 = some .clr ∧
    decodeTableWord 16 0x4000 = some (.ldb 0 0) ∧ decodeTableWord 16 0x6000 = some .val ∧
    decodeTableWord 16 0x8000 = some .dec ∧ decodeTableWord 16 0xA000 = some .aqi ∧ decodeTableWord 16 0xC000 = some .run ∧
    decodeTableWord 16 0xE000 = none := by decide

/-! ### Well-formedness: an ill-formed term for each check -/

theorem test_wellformed_ldb : (Instr.ldb 0x1F 0xFF).wellFormed = true := by decide
theorem test_addr_32_refused : (AsmCommand.ldb 32 0).wellFormed = false := by decide
theorem test_byte_256_refused : (AsmCommand.ldb 0 256).wellFormed = false := by decide
theorem test_ldh_addr_31_refused : (AsmCommand.ldh 31 0).wellFormed = false := by decide
theorem test_ldh_value_65536_refused : (AsmCommand.ldh 30 65536).wellFormed = false := by decide
theorem test_ldf_31_bytes_refused : (AsmCommand.ldf (List.replicate 31 0)).wellFormed = false := by decide
theorem test_read_byte_256_refused : (AsmCommand.read (256 :: List.replicate 31 0)).wellFormed = false := by decide

theorem test_zero_signature_refused : ({ built with hdrSig := 0 } : Params).wf = false := by decide
theorem test_offset_outside_refused :
    ({ built with pm25Off := 3 } : Params).wf = false ∧ ({ built with pm25Off := 0x1D } : Params).wf = false := by decide
theorem test_offset_edges_accepted :
    ({ built with pm25Off := 4 } : Params).wf = true ∧ ({ built with pm25Off := 0x1C } : Params).wf = true := by decide
theorem test_table_size_refused :
    tableWf [] = false ∧ tableWf ((List.range 9).map (fun i => ⟨10 * i, 10 * i + 9, i, i, 0⟩)) = false := by decide
theorem test_table_start_refused : tableWf [⟨1, 9, 0, 5, 0⟩] = false := by decide
theorem test_band_refused :
    tableWf [⟨0, 0, 0, 5, 0⟩] = false ∧ tableWf [⟨0, 65536, 0, 5, 0⟩] = false ∧ tableWf [⟨0, 9, 6, 5, 0⟩] = false ∧
    tableWf [⟨0, 9, 0, 501, 0⟩] = false ∧ tableWf [⟨0, 9, 0, 5, 6⟩] = false := by decide
theorem test_neighbours_refused :
    tableWf [⟨0, 9, 0, 5, 0⟩, ⟨11, 19, 6, 9, 1⟩] = false ∧ tableWf [⟨0, 9, 0, 5, 0⟩, ⟨8, 19, 6, 9, 1⟩] = false ∧
    tableWf [⟨0, 9, 0, 5, 0⟩, ⟨10, 19, 4, 9, 1⟩] = false := by decide
theorem test_shared_boundary_accepted : tableWf [⟨0, 9, 0, 5, 0⟩, ⟨9, 19, 5, 9, 1⟩] = true := by decide

/-! ### Commands -/

/-- V-CTL-2. -/
theorem test_nop_keeps_result :
    regsAfter (exec .nop (withRegs frameA 0x0007 0x0228 3 0x0011 0)) = some (0x0007, 0x0228, 3, 0x0011, 0) := by decide

/-- V-CTL-6. -/
theorem test_clr_leaves_protocol_error :
    stateAfter (exec .clr (withRegs frameA 0x0108 0x0228 3 0x0011 0)) = some State.reset := by decide

/-- V-CTL-3: the invalidation happens although the byte did not change. -/
theorem test_ldb_same_byte_invalidates :
    stateAfter (exec (.ldb 0x0D 0x03) (withRegs frameA 0x0007 0x0228 3 0x0011 0)) = some (loaded frameA) := by decide

/-- V-CTL-5. -/
theorem test_ldb_ignored_while_pe :
    stateAfter (exec (.ldb 0x00 0x42) (withRegs [] 0x0108 0 0 0xFFFF 7)) = some (withRegs [] 0x0108 0 0 0xFFFF 7) := by
  decide

/-- V-VAL-1. -/
theorem test_val_frame_A : regsAfter (exec .val (loaded frameA)) = some (0x0001, 0x0228, 0, 0xFFFF, 7) := by decide

/-- V-VAL-8: header and body both wrong, the header is reported and the sum is not computed. -/
theorem test_val_header_first :
    regsAfter (exec .val (loaded ((frameA.write 1 0x00).write 5 0x09))) = some (0x0010, 0, 0, 0xFFFF, 7) := by decide

/-- V-VAL-6. -/
theorem test_val_mismatch_shows_sum :
    regsAfter (exec .val (loaded (frameA.write 0x0D 0x04))) = some (0x0020, 0x0229, 0, 0xFFFF, 7) := by decide

/-- V-DEC-5: 0x0146, big-endian. -/
theorem test_dec_big_endian :
    regsAfter (exec .dec (withRegs (frameFor 326) 0x0001 0x00F2 0 0xFFFF 7)) = some (0x0003, 0x00F2, 326, 0xFFFF, 7) := by
  decide

/-- Program P4: `DEC` after a checksum mismatch. -/
theorem test_dec_not_validated :
    regsAfter (exec .dec (withRegs [] 0x0020 0x0229 0 0xFFFF 7)) = some (0x0228, 0x0229, 0, 0xFFFF, 7) := by decide

/-- V-AQI-16. -/
theorem test_aqi_17 :
    regsAfter (exec .aqi (withRegs frameA 0x0003 0x0228 3 0xFFFF 7)) = some (0x0007, 0x0228, 3, 0x0011, 0) := by decide

/-- V-AQI-19. -/
theorem test_aqi_out_of_range :
    regsAfter (exec .aqi (withRegs [] 0x0003 0x03A9 326 0xFFFF 7)) = some (0x0033, 0x03A9, 326, 0xFFFF, 7) := by decide

/-- V-RUN-12 and V-RUN-13, the last value in range and the first out of it. -/
theorem test_run_range_edge :
    regsAfter (exec .run (loaded (frameFor 325))) = some (0x0007, 0x00F1, 325, 0x01F3, 5) ∧
    regsAfter (exec .run (loaded (frameFor 326))) = some (0x0033, 0x00F2, 326, 0xFFFF, 7) := by decide

/-- V-RUN-16. -/
theorem test_run_reset_frame : regsAfter (exec .run State.reset) = some (0x0010, 0, 0, 0xFFFF, 7) := by decide

/-! ### Steps -/

/-- V-ERR-1: an illegal word as the first word after reset. -/
theorem test_step_illegal :
    regsAfter (step (State.reset.withFetchWord 16 0xE000)) = some (0x0108, 0, 0, 0xFFFF, 7) := by decide

/-- V-ERR-3: 0x2001 is not `CLR` and is ignored while `PE = 1`. -/
theorem test_step_2001_ignored :
    regsAfter (step ((withRegs [] 0x0108 0 0 0xFFFF 7).withFetchWord 16 0x2001)) = some (0x0108, 0, 0, 0xFFFF, 7) := by decide

/-- 70_reset_and_hazards.md R190: reset has priority, the word presented with it is not accepted. -/
theorem test_step_reset_priority :
    stateAfter (step { withRegs frameA 0x0007 0x0228 3 0x0011 0 with pending := [⟨true, true, 0x4042⟩] }) = some State.reset := by
  decide

/-- The word put by `withFetchWord` is run by the next step, from reset. -/
theorem test_withFetchWord_runs :
    regsAfter (step (State.reset.withFetchWord 16 0x6000)) = some (0x0010, 0, 0, 0xFFFF, 7) := by decide

/-! ### The engine: the whole table of 95_test_vectors.md section 2.5 -/

/-- The indices `compute` gives for `n` concentrations from `c` on. -/
def indices (c n : Nat) : List Nat :=
  (List.range n).map (fun k =>
    match compute builtTable (BitVec.ofNat 16 (c + k)) with
    | .result x _ => x.toNat
    | .outOfRange => 65535)

theorem test_compute_rows_0_to_59 :
    indices 0 60 =
      [0, 6, 11, 17, 22, 28, 33, 39, 44, 50] ++ [53, 55, 56, 58, 60, 62, 64, 66, 68, 69] ++
      [71, 73, 75, 77, 79, 81, 82, 84, 86, 88] ++ [90, 92, 94, 96, 97, 99, 102, 105, 107, 110] ++
      [112, 115, 117, 119, 122, 124, 127, 129, 132, 134] ++ [137, 139, 142, 144, 147, 149, 151, 152, 153, 153] := by decide

theorem test_compute_rows_60_to_129 :
    indices 60 70 =
      [154, 155, 156, 156, 157, 158, 158, 159, 160, 160] ++ [161, 162, 163, 163, 164, 165, 165, 166, 167, 167] ++
      [168, 169, 170, 170, 171, 172, 172, 173, 174, 174] ++ [175, 176, 177, 177, 178, 179, 179, 180, 181, 181] ++
      [182, 183, 184, 184, 185, 186, 186, 187, 188, 189] ++ [189, 190, 191, 191, 192, 193, 193, 194, 195, 196] ++
      [196, 197, 198, 198, 199, 200, 201, 202, 203, 204] := by decide

/-- Rows 130 to 220 of the table rise by one from 205 (its last row by two from 300). -/
theorem test_compute_rows_130_to_229 :
    indices 130 96 = (List.range 96).map (fun k => 205 + k) ∧ indices 226 4 = [302, 304, 306, 308] := by decide

theorem test_compute_rows_230_to_325 :
    indices 230 50 = (List.range 50).map (fun k => 310 + 2 * k) ∧
    indices 280 46 =
      [410, 412, 414, 416, 418, 420, 422, 424, 425, 427] ++ [429, 431, 433, 435, 437, 439, 441, 443, 445, 447] ++
      [449, 451, 453, 455, 457, 459, 461, 463, 465, 467] ++ [469, 471, 473, 475, 477, 479, 481, 483, 485, 487] ++
      [489, 491, 493, 495, 497, 499] ∧
    indices 326 1 = [65535] := by decide

/-! ### The assembler (30_encoding.md R79, R80) -/

theorem test_assemble_line :
    assemble [['L', 'D', 'B', ' ', '0', 'x', '0', 'D', ',', ' ', '3', ' ', ';', ' ', 'x'], ['R', 'U', 'N'], [';']] =
      some [0x4D03, 0xC000] := by decide
theorem test_assemble_ldh_big_endian :
    assemble [['L', 'D', 'H', ' ', '3', '0', ',', '5', '5', '2']] = some [0x5E02, 0x5F28] := by decide
theorem test_assemble_errors :
    assemble [['L', 'D', 'B', ' ', '3', '2', ',', '0']] = none ∧ assemble [['N', 'O', 'P', ' ', '0']] = none ∧
    assemble [['r', 'u', 'n']] = none := by decide

/-! ### Witnesses: states and operands that meet the hypotheses of the obligations -/

/-- A state in which the host presents one word. -/
def presenting (s : State) (w : Word) : State := { s with pending := [⟨false, true, w⟩] }

/-- Frame Z of 95_test_vectors.md section 2.3 loaded and run: a result is shown. -/
def frameZ : Memory := [(0x00, 0x42), (0x01, 0x4D), (0x1F, 0x8F)]

/-- The state after V-RUN-15. -/
def shownZ : State := withRegs frameZ 0x0007 0x008F 0 0 0

theorem witness_DecodeOfEncode : (Instr.ldb 0x1F 0xFF).wellFormed = true ∧ Instr.run.wellFormed = true := by decide
theorem witness_EncodeOfDecode : decode 0x5FFF = .cmd (.ldb 0x1F 0xFF) ∧ decode 0xC000 = .cmd .run := by decide
theorem witness_DecodeFollowsOpcodeMap :
    (0x4000#16).toNat / 8192 = 2 ∧ (0x5FFF#16).toNat / 8192 = 2 ∧ (0xE000#16).toNat / 8192 = 7 ∧
    (0xFFFF#16).toNat / 8192 = 7 ∧ (0x0001#16).toNat / 8192 = 0 ∧ (0x0001#16).toNat % 8192 ≠ 0 ∧
    (0xDFFF#16).toNat / 8192 = 6 ∧ (0xDFFF#16).toNat % 8192 ≠ 0 := by decide
theorem witness_AssembledLoadIsItsWord :
    (AsmCommand.ldb 31 255).expand.map (fun i => (encode i).toNat) = [0x5FFF] ∧
    (AsmCommand.ldb 0 0).expand.map (fun i => (encode i).toNat) = [0x4000] := by decide
theorem witness_StepRunsTheAcceptedCommand :
    (presenting State.reset 0x6000).Presents 0x6000 [] ∧ decode 0x6000 = .cmd .val := by decide
theorem witness_IdleStepChangesNothing :
    State.reset.pending = [] ∧
    ({ State.reset with pending := [⟨false, false, 0x6000⟩] } : State).pending = ⟨false, false, 0x6000⟩ :: [] := by decide
theorem witness_ResetAndClrGiveTheResetState :
    stateAfter (step { shownZ with pending := [⟨true, true, 0x6000⟩] }) = some State.reset ∧
    stateAfter (exec .clr shownZ) = some State.reset := by decide
theorem witness_ResetSampleStep :
    ({ shownZ with pending := [⟨true, true, 0x6000⟩] } : State).pending = ⟨true, true, 0x6000⟩ :: [] ∧
    (⟨true, true, 0x6000⟩ : PortSample).rst = true := by decide
theorem witness_EveryStepAnswers : built.wf = true ∧ ({ built with hdrSig := 0 } : Params).wf = false := by decide
theorem witness_IllegalWordRaisesIllegalCommand :
    (presenting shownZ 0xE000).Presents 0xE000 [] ∧ (presenting shownZ 0x2001).Presents 0x2001 [] ∧ shownZ.pe = false ∧
    (0xE000#16).toNat / 8192 = 7 ∧ (0x2001#16).toNat / 8192 = 1 ∧ (0x2001#16).toNat % 8192 ≠ 0 := by decide
theorem witness_ProtocolErrorCausesAndEffect :
    State.reset.pe = false ∧ State.reset.v = false ∧ State.reset.p = false ∧ shownZ.pe = false ∧ shownZ.v = true ∧
    shownZ.p = true ∧ (withRegs [] 0x0108 0 0 0xFFFF 7).pe = true ∧ Instr.run ≠ .clr := by decide
theorem witness_ProtocolErrorIsSticky :
    (withRegs [] 0x0108 0 0 0xFFFF 7).pe = true ∧
    (presenting (withRegs [] 0x0108 0 0 0xFFFF 7) 0x2001).pending = ⟨false, true, 0x2001⟩ :: [] ∧ (0x2001#16) ≠ 0x2000 ∧
    (stateAfter (step (presenting (withRegs [] 0x0108 0 0 0xFFFF 7) 0x2000))).map State.pe = some false ∧
    (stateAfter (step (presenting (withRegs [] 0x0108 0 0 0xFFFF 7) 0x2001))).map State.pe = some true := by decide
theorem witness_AcceptedWordsAreCounted :
    (stateAfter (step (presenting State.reset 0xE000))).map State.accepted = some 1 ∧
    (stateAfter (step (presenting (withRegs [] 0x0108 0 0 0xFFFF 7) 0x6000))).map State.accepted = some 1 := by decide
theorem witness_LdbStoresAndInvalidates : shownZ.pe = false ∧ (0 : Addr) ≠ 0x1F := by decide
theorem witness_ValChecksTheFrame :
    (loaded frameA).pe = false ∧ hdrOk built [] = false ∧ hdrOk built (frameA.write 0x0D 4) = true ∧
    sum16 (frameA.write 0x0D 4) ≠ declared (frameA.write 0x0D 4) ∧ hdrOk built frameA = true ∧
    sum16 frameA = declared frameA := by decide
theorem witness_DecExtractsTheConcentration :
    shownZ.pe = false ∧ shownZ.v = true ∧ State.reset.pe = false ∧ State.reset.v = false := by decide
theorem witness_AqiWritesTheComputedIndex :
    (withRegs frameZ 0x0003 0x008F 326 0xFFFF 7).pe = false ∧ (withRegs frameZ 0x0003 0x008F 326 0xFFFF 7).p = true ∧
    325 < (326#16).toNat ∧ (325#16).toNat ≤ 325 ∧ State.reset.p = false := by decide
theorem witness_RunOutcomes :
    validate built [] = .invalidHeader ∧ validate built (frameA.write 0x1F 0x29) = .checksumMismatch ∧
    validate built (frameFor 326) = .valid ∧ (decodePm25 built (frameFor 326)).toNat = 326 ∧
    validate built (frameFor 325) = .valid ∧ (decodePm25 built (frameFor 325)).toNat = 325 ∧
    (loaded frameA).st.toNat < 128 := by decide
theorem witness_RunIsTheThreeStages :
    (loaded frameA).pe = false ∧ (stateAfter (exec .val (loaded frameA))).map State.v = some true ∧
    (stateAfter (exec .val (loaded []))).map State.v = some false := by decide
theorem witness_EveryCommandIsIdempotent :
    stateAfter (exec .run (loaded frameZ)) = some shownZ ∧ stateAfter (exec .run shownZ) = some shownZ := by decide
theorem witness_InvalidationWritesLaterStagesOnly : Stage.val ≠ .aqi ∧ Stage.dec ≠ .aqi := by decide
theorem witness_OnlyLdbClrAndResetWriteTheFrame :
    (stateAfter (step (presenting shownZ 0x5F28))).map (fun t => t.frame.read 0x1F) = some 0x28 ∧
    shownZ.frame.read 0x1F = 0x8F := by decide
theorem witness_LoadOrderDoesNotMatter :
    State.reset.pe = false ∧ State.reset.frame.wf = true ∧
    ∀ a : Addr, lastLoaded a [(0x00, 0x42), (0x1F, 0x01), (0x1F, 0x8F)] = lastLoaded a [(0x1F, 0x8F), (0x00, 0x42)] := by
  decide
theorem witness_PseudoLoadsLeaveTheirValues :
    (AsmCommand.ldh 30 65535).wellFormed = true ∧ (AsmCommand.ldh 0 0).wellFormed = true ∧
    (AsmCommand.ldf (List.replicate 32 255)).wellFormed = true := by decide
theorem witness_CommandsReadOnlyTheirBytes :
    (frameZ.write 0x0B 0xFF).read 0x0C = frameZ.read 0x0C ∧ (frameZ.write 0x0B 0xFF).read 0x0D = frameZ.read 0x0D := by decide
theorem witness_BadHeaderShortCircuits :
    (loaded (frameA.write 0 0x43)).frame.read 0x00 ≠ 0x42 ∧ (loaded (frameA.write 1 0x00)).frame.read 0x01 ≠ 0x4D ∧
    (frameOf [0x43, 0x4D]).read 0x00 = (frameA.write 0 0x43).read 0x00 ∧
    (frameOf [0x43, 0x4D]).read 0x01 = (frameA.write 0 0x43).read 0x01 := by decide
theorem witness_ChecksumIsThePlainSum : 7650 < (declared (frameA.write 0x1E 0xFF)).toNat := by decide
theorem witness_WhatTheChecksumCatches :
    hdrOk built frameA = true ∧ frameA.sumBytes 30 = 552 ∧ frameA.read 0x1E = 0x02 ∧ frameA.read 0x1F = 0x28 ∧
    validate built frameA = .valid ∧ frameA.read 0x01 ≠ 0x00 ∧ frameA.read 0x02 ≠ 0x01 ∧ frameA.read 0x1D ≠ 0x01 ∧
    frameA.read 0x1F ≠ 0x29 ∧ sum16 ((frameA.write 0x10 0xC8).write 0x11 0x00) = sum16 frameA ∧
    (0x02 : Addr).toNat = 2 ∧ (0x1D : Addr).toNat = 29 := by decide
theorem witness_ClrLeavesTheResetState : (withRegs [] 0x0108 0 0 0xFFFF 7).pe = true ∧ Instr.dec ≠ .clr := by decide
theorem witness_ResetFrameIsRejected :
    built.hdrSig ≠ 0 ∧ ({ built with hdrSig := 0 } : Params).hdrSig = 0 ∧ ∀ a : Addr, Memory.read [] a = 0x00 := by decide
theorem witness_BandContainsTheValue :
    tableWf builtTable = true ∧ 3254 ≤ vmax builtTable ∧ 325 < (326#16).toNat ∧ band builtTable 3254 = some 5 ∧ band builtTable 0 = some 0 ∧
    band [⟨0, 9, 0, 5, 0⟩, ⟨9, 19, 5, 9, 1⟩] 9 = some 1 := by decide
theorem witness_OutOfRangeIsAboveTheTable :
    tableWf builtTable = true ∧ compute builtTable 326 = .outOfRange ∧ compute builtTable 325 = .result 499 5 ∧
    (builtTable[0]?).isSome = true := by decide
theorem witness_InterpolationIsExactHalfUp :
    (⟨2255, 3254, 301, 500, 5⟩ : Band).wf = true ∧ interp ⟨2255, 3254, 301, 500, 5⟩ 2255 = 301 ∧
    interp ⟨2255, 3254, 301, 500, 5⟩ 3254 = 500 ∧ band builtTable (10 * 325) = some 5 := by decide
theorem witness_ComputeAnswers :
    tableWf builtTable = true ∧ (325#16).toNat ≤ cmax builtTable ∧ (0#16).toNat ≤ cmax builtTable ∧
    cmax builtTable < (326#16).toNat := by decide
theorem witness_ComputeIsMonotone :
    tableWf builtTable = true ∧ cmax builtTable = 325 ∧ compute builtTable 326 = .outOfRange ∧ compute builtTable 9 = .result 50 0 ∧ compute builtTable 10 = .result 53 1 := by decide
theorem witness_SourceScenarios :
    [3, 5, 33, 41, 101].all (fun c => decide (validate built (frameFor c) = .valid)
      && decide ((decodePm25 built (frameFor c)).toNat = c)) = true ∧ (loaded (frameFor 3)).pe = false := by decide

/-- The invariants hold in a state that shows a result, with a word presented. -/
theorem witness_StepKeepsTheInvariants : StateInv built (presenting shownZ 0x8000) := by constructor <;> decide
theorem witness_InvariantsForAllParameters :
    built.wf = true ∧ ({ built with hdrSig := 0xFFFF, pm25Off := 0x1C } : Params).wf = true := by decide
theorem witness_PortsShowTheRegisters : StateInv built shownZ := by constructor <;> decide

/-- The state after one step, or the same state. -/
def next (s : State) : State := (stateAfter (stepAt built s)).getD s

/-- The host's four words that load frame Z over the reset frame and run it. -/
def startZ : State :=
  { State.reset with pending := [⟨false, true, 0x4042⟩, ⟨false, true, 0x414D⟩, ⟨false, true, 0x5F8F⟩, ⟨false, true, 0xC000⟩] }

theorem reachable_next {s : State} (h : Reachable built s) (hs : stepAt built s = .next (next s)) :
    Reachable built (next s) := .step h hs

theorem witness_ShownResultsAreGenuine :
    Reachable built (next (next (next (next startZ)))) ∧ (next (next (next (next startZ)))).Shows 0 0 0 :=
  ⟨reachable_next (reachable_next (reachable_next (reachable_next (.start _) rfl) rfl) rfl) rfl, by decide⟩

end Sys2Proof.Tests
end

section
/-! PROOFS. Reset, `CLR` and invalidation (spec/10_state.md R33, R35). -/

namespace Sys2Proof.Machine

/-! ### Reset and `CLR` -/

/-- R190: reset has priority over the word of the same sample, which is taken and not counted. -/
theorem fetch_of_rst {s : State} {e : PortSample} {rest : List PortSample} (hp : s.pending = e :: rest)
    (hr : e.rst = true) : fetch s = .reset (s.setPending rest) := by
  simp [fetch, hp, hr]

theorem step_of_rst {s : State} {e : PortSample} {rest : List PortSample} (hp : s.pending = e :: rest)
    (hr : e.rst = true) : step s = .next (resetAll (s.setPending rest)) := by
  simp [step, stepWith, fetch_of_rst hp hr]

/-- R91: `CLR` is `resetAll`, with `PE = 1` too. -/
theorem exec_clr (s : State) : exec .clr s = .next (resetAll s) := rfl

/-- A step that takes a reset and an executed `CLR` are one case: `resetAll` of a state with the host's index of `s`. -/
theorem eq_resetAll_of_reset_or_clr {s t : State}
    (h : (∃ (e : PortSample) (rest : List PortSample), s.pending = e :: rest ∧ e.rst = true ∧ step s = .next t) ∨
      exec .clr s = .next t) : ∃ u : State, t = resetAll u ∧ u.accepted = s.accepted := by
  rcases h with ⟨e, rest, hp, hr, hstep⟩ | hclr
  · rw [step_of_rst hp hr] at hstep
    cases hstep
    exact ⟨s.setPending rest, rfl, rfl⟩
  · rw [exec_clr] at hclr
    cases hclr
    exact ⟨s, rfl, rfl⟩

theorem State.ports_cmdReady (s : State) : s.ports.cmdReady = true := rfl

/-- Settles O9: both ways the next state is `resetAll` of a state that carries the same index, and the reset state's fields
are known. -/
theorem resetAndClrGiveTheResetState : Obligations.ResetAndClrGiveTheResetState := by
  intro s t h
  obtain ⟨u, rfl, hacc⟩ := eq_resetAll_of_reset_or_clr h
  simp [resetAll_st, State.ports_cmdReady, hacc]

/-! ### Invalidation -/

theorem SameStatusOutside.trans {mask : Word} {s t u : State} (hst : SameStatusOutside mask s t)
    (htu : SameStatusOutside mask t u) : SameStatusOutside mask s u := Eq.trans htu hst

/-- The invalid values of stage `aqi` reach no bit of `ST` but `R`, which the mask of the three stage bits covers. -/
theorem invalidateAqi_outside (s : State) : SameStatusOutside 0x0007 s (invalidateAqi s) :=
  putField_outside (by decide)

/-- Those of stage `dec` reach no bit of `ST` but `P`. -/
theorem invalidateDec_outside (s : State) : SameStatusOutside 0x0007 s (invalidateDec s) :=
  putField_outside (by decide)

/-- Those of stage `val` reach no bit of `ST` but `V`. -/
theorem invalidateVal_outside (s : State) : SameStatusOutside 0x0007 s (invalidateVal s) :=
  putField_outside (by decide)

/-- R33: `ERR`, `PE`, `PEC` and the reserved bits of `ST` stay, whatever the stage. -/
theorem invalidateFrom_outside (stage : Stage) (s : State) : SameStatusOutside 0x0007 s (invalidateFrom stage s) := by
  cases stage with
  | val =>
    exact ((invalidateVal_outside s).trans (invalidateDec_outside _)).trans (invalidateAqi_outside _)
  | dec => exact (invalidateDec_outside s).trans (invalidateAqi_outside _)
  | aqi => exact invalidateAqi_outside s

/-- R33: every stage's invalidation leaves the frame and the host's side. -/
theorem invalidateFrom_keeps (stage : Stage) (s : State) :
    SameFrame s (invalidateFrom stage s) ∧ SameHost s (invalidateFrom stage s) := by
  cases stage <;> simp [SameFrame, SameHost]

/-- R33: stage `aqi` is the last, so that every invalidation writes its invalid values. -/
theorem invalidateFrom_no_result (stage : Stage) (s : State) :
    (invalidateFrom stage s).r = false ∧ (invalidateFrom stage s).aqi = Config.aqiInvalid ∧
    (invalidateFrom stage s).cat = Config.catInvalid := by
  cases stage <;> simp

/-- R33: from stage `dec` or an earlier one, the invalid values of stage `dec` are written. -/
theorem invalidateFrom_no_concentration {stage : Stage} (h : stage ≠ .aqi) (s : State) :
    (invalidateFrom stage s).p = false ∧ (invalidateFrom stage s).pm25 = 0x0000 := by
  cases stage with
  | val => simp
  | dec => simp
  | aqi => exact absurd rfl h

/-- Settles O26, clause by clause: what every stage writes and keeps, then what each stage leaves of the earlier ones. -/
theorem invalidationWritesLaterStagesOnly : Obligations.InvalidationWritesLaterStagesOnly := by
  intro s
  refine ⟨fun stage => ?_, fun stage h => invalidateFrom_no_concentration h s, ?_, ?_, ?_⟩
  · obtain ⟨hr, haqi, hcat⟩ := invalidateFrom_no_result stage s
    obtain ⟨hframe, hhost⟩ := invalidateFrom_keeps stage s
    exact ⟨hr, haqi, hcat, hframe, hhost, invalidateFrom_outside stage s⟩
  · simp
  · simp
  · simp

end Sys2Proof.Machine
end

section
/-! PROOFS. The two-byte reads of the frame (spec/20_memory.md R51). -/

namespace Sys2Proof.Machine

/-- Two bytes side by side, as a number: the first is the more significant. -/
theorem toNat_append_bytes (hi lo : Byte) : (hi ++ lo).toNat = hi.toNat * 256 + lo.toNat := by
  rw [BitVec.toNat_append, ← Nat.shiftLeft_add_eq_or_of_lt lo.isLt, Nat.shiftLeft_eq]

/-- R51: the byte at the lower address is the more significant, at even and odd addresses. -/
theorem Memory.toNat_be16 (F : Memory) (a : Fin 31) :
    (F.be16 a).toNat =
      (F.read (BitVec.ofNat 5 a.val)).toNat * 256 + (F.read (BitVec.ofNat 5 (a.val + 1))).toNat :=
  toNat_append_bytes _ _

/-- Settles O27: the declared checksum and the concentration are `be16` at their offsets, so that one fact about `be16`
gives the numbers of all three. -/
theorem twoByteFieldsAreBigEndian : Obligations.TwoByteFieldsAreBigEndian := by
  refine ⟨Memory.toNat_be16, fun F => ?checksum, fun F => ?concentration, fun P F => ?offset⟩
  case checksum => exact F.toNat_be16 Config.ckOff
  case concentration => exact F.toNat_be16 built.pm25Off
  case offset => rfl

end Sys2Proof.Machine
end

section
/-! PROOFS. Which words are illegal and what one does (spec/30_encoding.md R71 to R76, spec/60_exceptions.md R175). -/

namespace Sys2Proof

/-! ### The fields of a word as numbers -/

/-- R71: `OP` is the word's quotient by 2^13. -/
theorem toNat_opField (w : Word) : (opField w).toNat = w.toNat / 8192 := by
  have hquot : w.toNat / 8192 < 8 := by have := w.isLt; omega
  rw [opField, BitVec.extractLsb'_toNat, Nat.shiftRight_eq_div_pow]
  exact Nat.mod_eq_of_lt hquot

/-- R71: the low field is the word's remainder by 2^13. -/
theorem toNat_lowField (w : Word) : (lowField w).toNat = w.toNat % 8192 := by
  rw [lowField, BitVec.extractLsb'_toNat, Nat.shiftRight_zero]

theorem opField_eq_iff (w : Word) (op : BitVec 3) : opField w = op ↔ w.toNat / 8192 = op.toNat := by
  rw [← BitVec.toNat_inj, toNat_opField]

theorem lowField_eq_zero_iff (w : Word) : lowField w = 0#13 ↔ w.toNat % 8192 = 0 := by
  rw [← BitVec.toNat_inj, toNat_lowField, BitVec.toNat_ofNat, Nat.zero_mod]

/-- `OP` and the low field together are the whole word. -/
theorem fields_eq_zero_iff (w : Word) : opField w = 0#3 ∧ lowField w = 0#13 ↔ w = 0#16 := by
  rw [opField_eq_iff, lowField_eq_zero_iff, ← BitVec.toNat_inj, BitVec.toNat_ofNat, BitVec.toNat_ofNat]
  omega

/-! ### What the decoder answers, in the fields -/

/-- R72: beside `LDB`'s opcode only 7 has no command. -/
theorem formatN_eq_none_iff {op : BitVec 3} (h : op ≠ 2#3) : formatN op = none ↔ op = 7#3 := by
  decide +revert

theorem formatN_eq_some_nop_iff (op : BitVec 3) : formatN op = some .nop ↔ op = 0#3 := by
  decide +revert

/-- Everything the decoder can answer (R73, R75, R76): a load, a reserved opcode, a format-N word with a non-zero low field,
a format-N command. -/
theorem decode_cases (w : Word) :
    (opField w = 2#3 ∧ decode w = .cmd (.ldb (addrField w) (dataField w))) ∨
    (opField w = 7#3 ∧ decode w = .illegal .reservedOpcode) ∨
    (opField w ≠ 2#3 ∧ lowField w ≠ 0#13 ∧ decode w = .illegal .nonzeroField) ∨
    (∃ i, opField w ≠ 7#3 ∧ formatN (opField w) = some i ∧ lowField w = 0#13 ∧ decode w = .cmd i) := by
  by_cases hload : opField w = 2#3
  · simp [decode, hload]
  · have hnone := formatN_eq_none_iff hload
    cases hi : formatN (opField w) with
    | none => exact .inr (.inl ⟨hnone.mp hi, by simp [decode, hload, hi]⟩)
    | some i =>
      have hop : opField w ≠ 7#3 := fun h => by simp [hnone.mpr h] at hi
      by_cases hlow : lowField w = 0#13
      · simp [decode, hload, hi, hop, hlow]
      · simp [decode, hload, hi, hlow]

/-- R76, its two clauses in the fields of the word. -/
theorem decode_illegal_iff (w : Word) :
    (∃ why, decode w = .illegal why) ↔ opField w = 7#3 ∨ (opField w ≠ 2#3 ∧ lowField w ≠ 0#13) := by
  rcases decode_cases w with ⟨hop, hd⟩ | ⟨hop, hd⟩ | ⟨hop, hlow, hd⟩ | ⟨i, hop, -, hlow, hd⟩
  · simp [hd, hop]
  · simp [hd, hop]
  · simp [hd, hop, hlow]
  · simp [hd, hop, hlow]

/-- R76, as the number the word is. -/
theorem decode_illegal_iff_toNat (w : Word) :
    (∃ why, decode w = .illegal why) ↔
      (w.toNat / 8192 = 7 ∨ (w.toNat / 8192 ≠ 2 ∧ w.toNat % 8192 ≠ 0)) := by
  rw [decode_illegal_iff, ne_eq, ne_eq, opField_eq_iff, opField_eq_iff, lowField_eq_zero_iff]
  exact Iff.rfl

/-- R76: 0x0000 is the only no-op. -/
theorem decode_eq_nop_iff (w : Word) : decode w = .cmd .nop ↔ w = 0#16 := by
  rw [← fields_eq_zero_iff]
  rcases decode_cases w with ⟨hop, hd⟩ | ⟨hop, hd⟩ | ⟨-, hlow, hd⟩ | ⟨i, -, hi, hlow, hd⟩
  · simp [hd, hop]
  · simp [hd, hop]
  · simp [hd, hlow]
  · rw [hd, ← formatN_eq_some_nop_iff, hi]
    simp [hlow]

end Sys2Proof

namespace Sys2Proof.Machine

/-! ### The step that takes an illegal word -/

/-- R36: a presented word is taken and counted. -/
theorem fetch_of_presents {s : State} {w : Word} {rest : List PortSample} (h : s.Presents w rest) :
    fetch s = .word w (acceptWord (s.setPending rest)) := by
  simp [fetch, show s.pending = _ from h]

/-- R93: a presented illegal word is executed as such. -/
theorem step_of_illegal {s : State} {w : Word} {rest : List PortSample} {why : Illegal} (h : s.Presents w rest)
    (hw : decode w = .illegal why) : step s = execIllegal (acceptWord (s.setPending rest)) := by
  simp [step, stepWith, fetch_of_presents h, hw]

/-- R175: raising a protocol error reaches no bit of `ST` but `PE` and `PEC`. -/
theorem raiseProtocolError_outside (e : ProtocolError) (s : State) :
    SameStatusOutside 0x0308 s (raiseProtocolError e s) :=
  SameStatusOutside.trans (t := s.setPe true) (putField_outside (by decide)) (putField_outside (by decide))

/-- R175: what raising a protocol error writes, and that nothing else changes. -/
theorem raiseProtocolError_effect (e : ProtocolError) (s : State) :
    (raiseProtocolError e s).pe = true ∧ (raiseProtocolError e s).pec = e.code ∧
    SameStatusOutside 0x0308 s (raiseProtocolError e s) ∧ SameRegisters s (raiseProtocolError e s) ∧
    SameFrame s (raiseProtocolError e s) ∧ SameHost s (raiseProtocolError e s) := by
  refine ⟨?pe, ?pec, raiseProtocolError_outside e s, ?kept⟩
  case pe => simp
  case pec => simp
  case kept => simp [SameRegisters, SameFrame, SameHost]

/-- R76: without protocol error, an illegal word raises ILLEGAL_COMMAND. -/
theorem execIllegal_of_not_pe {s : State} (h : s.pe = false) :
    execIllegal s = .next (raiseProtocolError .illegalCommand s) :=
  congrArg Host.Outcome.next (unlessProtocolError_of_not_pe h)

/-- Settles O13: the decoder's two clauses of illegality, then the step as `raiseProtocolError` on the state in which the
word has been taken and counted. -/
theorem illegalWordRaisesIllegalCommand : Obligations.IllegalWordRaisesIllegalCommand := by
  refine ⟨decode_illegal_iff_toNat, decode_eq_nop_iff, fun s w rest hword hpe hill => ?_⟩
  obtain ⟨why, hw⟩ := (decode_illegal_iff_toNat w).mpr hill
  have htaken : (acceptWord (s.setPending rest)).pe = false := hpe
  have hstep : step s = .next (raiseProtocolError .illegalCommand (acceptWord (s.setPending rest))) :=
    (step_of_illegal hword hw).trans (execIllegal_of_not_pe htaken)
  obtain ⟨hpe', hpec, hst, hregs, hframe, hpending, haccepted⟩ :=
    raiseProtocolError_effect .illegalCommand (acceptWord (s.setPending rest))
  exact ⟨_, hstep, hpe', hpec, hst, hregs, hframe, hpending, haccepted⟩

end Sys2Proof.Machine
end

section
/-! PROOFS. `NOP`, `CLR` and `LDB` (spec/40_frame_control.md R90 to R92). -/

namespace Sys2Proof

/-! ### The words of `CLR` and `LDB` -/

theorem formatN_eq_some_clr_iff (op : BitVec 3) : formatN op = some .clr ↔ op = 1#3 := by
  decide +revert

/-- R72, R75: a command other than `LDB` is read from its opcode with a zero low field and from nothing else. -/
theorem decode_eq_cmd_iff_of_ne_ldb {i : Instr} (hi : ∀ a d, i ≠ .ldb a d) (w : Word) :
    decode w = .cmd i ↔ formatN (opField w) = some i ∧ lowField w = 0#13 := by
  rcases decode_cases w with ⟨hop, hd⟩ | ⟨hop, hd⟩ | ⟨-, hlow, hd⟩ | ⟨j, -, hj, hlow, hd⟩
  · simp [hd, hop, formatN, (hi _ _).symm]
  · simp [hd, hop, formatN]
  · simp [hd, hlow]
  · simp [hd, hj, hlow]

/-- R91: 0x2000 is the only word of `CLR`. -/
theorem decode_eq_clr_iff (w : Word) : decode w = .cmd .clr ↔ w = 0x2000#16 := by
  rw [decode_eq_cmd_iff_of_ne_ldb (by simp), formatN_eq_some_clr_iff, opField_eq_iff, lowField_eq_zero_iff,
    ← BitVec.toNat_inj, BitVec.toNat_ofNat, BitVec.toNat_ofNat]
  omega

/-- R72, R73: the three fields of `LDB`'s word lie side by side, so that putting them together is a bitwise or. -/
theorem encode_ldb (a : Addr) (d : Byte) :
    encode (.ldb a d) = 0x4000#16 ||| (a.setWidth 16 <<< 8) ||| d.setWidth 16 := by
  have hop : 0x4000#16 = (0b010#3).setWidth 16 <<< 13 := by decide
  rw [hop]
  apply BitVec.eq_of_getLsbD_eq
  intro i hi
  simp only [encode, Instr.op, Instr.low, BitVec.getLsbD_append, BitVec.getLsbD_or, BitVec.getLsbD_shiftLeft,
    BitVec.getLsbD_setWidth]
  by_cases hdata : i < 8
  · have hlow : i < 13 := by omega
    simp [hi, hdata, hlow]
  · have hd : d.getLsbD i = false := BitVec.getLsbD_of_ge d i (by omega)
    by_cases hlow : i < 13
    · have hw : i - 8 < 16 := by omega
      simp [hi, hdata, hlow, hd, hw]
    · have ha : a.getLsbD (i - 8) = false := BitVec.getLsbD_of_ge a (i - 8) (by omega)
      have hw : i - 13 < 16 := by omega
      simp [hi, hdata, hlow, hd, ha, hw]

end Sys2Proof

namespace Sys2Proof.Machine

/-! ### `NOP` -/

/-- R90: with and without protocol error, `NOP` answers the state it was given. -/
theorem exec_nop (s : State) : exec .nop s = .next s := by
  cases hpe : s.pe with
  | false => exact congrArg Host.Outcome.next (unlessProtocolError_of_not_pe hpe)
  | true => exact congrArg Host.Outcome.next (unlessProtocolError_of_pe hpe)

/-- Settles O17: the word is a closed computation, and `NOP`'s body is the identity. -/
theorem nopChangesNothing : Obligations.NopChangesNothing := by
  refine ⟨?word, exec_nop⟩
  case word => decide

/-! ### `CLR` -/

/-- R176: while `PE = 1` every command but `CLR` answers the same state. -/
theorem exec_of_pe {i : Instr} {s : State} (hpe : s.pe = true) (hi : i ≠ .clr) : exec i s = .next s := by
  rw [exec_eq_effectAt, effectAt_of_pe hpe hi]

/-- Settles O18: the decoder's one word of `CLR`, then the fields of `resetAll`, then the protocol-error state. -/
theorem clrLeavesTheResetState : Obligations.ClrLeavesTheResetState := by
  refine ⟨decode_eq_clr_iff, fun s => ⟨resetAll s, exec_clr s, rfl, ?fields⟩, fun i s hpe hi => exec_of_pe hpe hi⟩
  case fields => simp [resetAll_st]

/-! ### `LDB` -/

/-- R93: without protocol error `LDB` is its body. -/
theorem exec_ldb_of_not_pe {s : State} (h : s.pe = false) (a : Addr) (d : Byte) :
    exec (.ldb a d) s = .next (bodyLdb a d s) :=
  congrArg Host.Outcome.next (unlessProtocolError_of_not_pe h)

/-- What stays outside a mask stays outside every mask that covers it. -/
theorem SameStatusOutside.mono {m m' : Word} {s t : State} (h : SameStatusOutside m s t)
    (hm : ~~~m &&& ~~~m' = ~~~m') : SameStatusOutside m' s t := by
  unfold SameStatusOutside at *
  rw [← hm, ← BitVec.and_assoc, h, BitVec.and_assoc]

/-- R28: a data outcome reaches no bit of `ST` but those of `ERR`. -/
theorem setErr_outside (o : DataOutcome) (s : State) : SameStatusOutside 0x0070 s (s.setErr o) :=
  putField_outside (by decide)

/-- R92: `LDB` writes its one byte; the invalidation does not touch the frame. -/
theorem bodyLdb_frame (a : Addr) (d : Byte) (s : State) : (bodyLdb a d s).frame = s.frame.write a d := by
  simp [bodyLdb]

/-- R92: nothing derived from the previous contents stays readable, also when the byte did not change. -/
theorem bodyLdb_invalid (a : Addr) (d : Byte) (s : State) :
    (bodyLdb a d s).v = false ∧ (bodyLdb a d s).p = false ∧ (bodyLdb a d s).r = false ∧ (bodyLdb a d s).err = 0 ∧
    (bodyLdb a d s).sum = 0 ∧ (bodyLdb a d s).pm25 = 0 ∧ (bodyLdb a d s).aqi = Config.aqiInvalid ∧
    (bodyLdb a d s).cat = Config.catInvalid := by
  simp [bodyLdb, DataOutcome.code]

/-- R92: of `ST` only the stage bits and `ERR` change. -/
theorem bodyLdb_outside (a : Addr) (d : Byte) (s : State) : SameStatusOutside 0x0077 s (bodyLdb a d s) := by
  have hstages : SameStatusOutside 0x0007 s (invalidateFrom .val (s.setFrame (s.frame.write a d))) :=
    invalidateFrom_outside .val (s.setFrame (s.frame.write a d))
  exact (hstages.mono (by decide)).trans ((setErr_outside .none _).mono (by decide))

theorem bodyLdb_host (a : Addr) (d : Byte) (s : State) : SameHost s (bodyLdb a d s) := by
  simp [SameHost, bodyLdb]

/-- Settles O19: the word from its fields, then what `LDB`'s body writes and what it keeps. -/
theorem ldbStoresAndInvalidates : Obligations.LdbStoresAndInvalidates := by
  refine fun a d => ⟨encode_ldb a d, fun s hpe => ⟨bodyLdb a d s, exec_ldb_of_not_pe hpe a d, ?stored, ?others, ?rest⟩⟩
  case stored => rw [bodyLdb_frame, Memory.read_write_same]
  case others =>
    intro b hb
    rw [bodyLdb_frame, Memory.read_write_other _ _ hb]
  case rest =>
    obtain ⟨hv, hp, hr, herr, hsum, hpm25, haqi, hcat⟩ := bodyLdb_invalid a d s
    exact ⟨hv, hp, hr, herr, hsum, hpm25, haqi, hcat, bodyLdb_outside a d s, bodyLdb_host a d s⟩

end Sys2Proof.Machine
end

section
/-! PROOFS. The validator's functions of the frame (spec/41_validate.md R100 to R104). -/

namespace Sys2Proof.Machine

/-! ### The header check -/

/-- R100: the check is a conjunction, one equation a signature byte. -/
theorem hdrOk_iff (P : Params) (F : Memory) :
    hdrOk P F = true ↔ F.read 0x00 = P.hdrSig.extractLsb' 8 8 ∧ F.read 0x01 = P.hdrSig.extractLsb' 0 8 := by
  simp [hdrOk]

/-- The more significant byte of a word, as a number. -/
theorem toNat_highByte (w : Word) : (w.extractLsb' 8 8).toNat = w.toNat / 256 := by
  have hquot : w.toNat / 256 < 256 := by have := w.isLt; omega
  rw [BitVec.extractLsb'_toNat, Nat.shiftRight_eq_div_pow]
  exact Nat.mod_eq_of_lt hquot

/-- The less significant byte of a word, as a number. -/
theorem toNat_lowByte (w : Word) : (w.extractLsb' 0 8).toNat = w.toNat % 256 := by
  rw [BitVec.extractLsb'_toNat, Nat.shiftRight_zero]

/-- R100, with the two signature bytes as numbers. -/
theorem hdrOk_iff_toNat (P : Params) (F : Memory) :
    hdrOk P F = true ↔
      (F.read 0x00).toNat = P.hdrSig.toNat / 256 ∧ (F.read 0x01).toNat = P.hdrSig.toNat % 256 := by
  rw [hdrOk_iff, ← BitVec.toNat_inj, ← BitVec.toNat_inj, toNat_highByte, toNat_lowByte]

/-- R100 at the default signature 0x424D. -/
theorem hdrOk_built_iff (F : Memory) : hdrOk built F = true ↔ F.read 0x00 = 0x42 ∧ F.read 0x01 = 0x4D := by
  have hhigh : built.hdrSig.extractLsb' 8 8 = (0x42 : Byte) := by decide
  have hlow : built.hdrSig.extractLsb' 0 8 = (0x4D : Byte) := by decide
  rw [hdrOk_iff, hhigh, hlow]

/-- R100, R105: the check reads the two header bytes and nothing else. -/
theorem hdrOk_congr (P : Params) {F G : Memory} (h0 : F.read 0x00 = G.read 0x00) (h1 : F.read 0x01 = G.read 0x01) :
    hdrOk P F = hdrOk P G := by
  rw [Bool.eq_iff_iff, hdrOk_iff, hdrOk_iff, h0, h1]

/-- Settles O33: the check as two equations of bytes, read as numbers for every signature and computed for 0x424D. -/
theorem headerCheckComparesBothBytes : Obligations.HeaderCheckComparesBothBytes :=
  ⟨hdrOk_iff_toNat, hdrOk_built_iff⟩

/-! ### The checksum -/

/-- R101: the accumulated bytes are the sum over the addresses below `n`. -/
theorem Memory.sumBytes_eq_sum (F : Memory) (n : Nat) :
    F.sumBytes n = ∑ a ∈ Finset.range n, (F.read (BitVec.ofNat 5 a)).toNat := by
  induction n with
  | zero => rfl
  | succ n ih => rw [Memory.sumBytes, Finset.sum_range_succ, ih]

/-- Writing a byte at or behind the end of the summed range leaves the sum. -/
theorem Memory.sumBytes_write_of_le (F : Memory) {n : Nat} {a : Addr} (d : Byte) (h : n ≤ a.toNat) :
    (F.write a d).sumBytes n = F.sumBytes n := by
  induction n with
  | zero => rfl
  | succ n ih =>
    have hne : BitVec.ofNat 5 n ≠ a := by
      rintro rfl
      have hle : (BitVec.ofNat 5 n).toNat ≤ n := by
        rw [BitVec.toNat_ofNat]
        exact Nat.mod_le _ _
      omega
    rw [Memory.sumBytes, Memory.sumBytes, ih (by omega), Memory.read_write_other F d hne]

/-- R101: the two checksum bytes, behind the thirty summed ones, are not in the checksum. -/
theorem sum16_write_of_le (F : Memory) {a : Addr} (d : Byte) (h : 30 ≤ a.toNat) : sum16 (F.write a d) = sum16 F :=
  congrArg (BitVec.ofNat 16) (F.sumBytes_write_of_le d h)

theorem toNat_sum16 (F : Memory) :
    (sum16 F).toNat = (∑ a ∈ Finset.range 30, (F.read (BitVec.ofNat 5 a)).toNat) % 65536 := by
  rw [← F.sumBytes_eq_sum]
  exact BitVec.toNat_ofNat _ _

/-- Settles O34: `sumBytes` is the sum over the thirty addresses, and each of the two writes lies behind them. -/
theorem checksumIsTheSumOfThirtyBytes : Obligations.ChecksumIsTheSumOfThirtyBytes := by
  refine fun F => ⟨toNat_sum16 F, fun d e => ?_⟩
  rw [sum16_write_of_le _ e (by decide), sum16_write_of_le F d (by decide)]

/-! ### The three answers -/

/-- R104: which of the three answers `validate` gives, and when. -/
theorem validate_cases (P : Params) (F : Memory) :
    (hdrOk P F = false ∧ validate P F = .invalidHeader) ∨
    (hdrOk P F = true ∧ sum16 F ≠ declared F ∧ validate P F = .checksumMismatch) ∨
    (hdrOk P F = true ∧ sum16 F = declared F ∧ validate P F = .valid) := by
  cases hh : hdrOk P F with
  | false => simp [validate, hh]
  | true =>
    by_cases hs : sum16 F = declared F
    · simp [validate, hh, hs]
    · simp [validate, hh, hs]

/-- Settles O36: the conditions of the three answers exclude one another, so that each case decides all three clauses. -/
theorem validateAnswers : Obligations.ValidateAnswers := by
  intro P F
  rcases validate_cases P F with ⟨hh, hv⟩ | ⟨hh, hs, hv⟩ | ⟨hh, hs, hv⟩
  · simp [hh, hv]
  · simp [hh, hs, hv]
  · simp [hh, hs, hv]

end Sys2Proof.Machine
end

section
/-! PROOFS. The command `VAL`, and a wrong header under `VAL` and `RUN` (spec/41_validate.md R105, R108). -/

namespace Sys2Proof.Machine

/-! ### `VAL` -/

/-- R93: without protocol error `VAL` is its body. -/
theorem exec_val_of_not_pe {s : State} (h : s.pe = false) : exec .val s = .next (bodyVal built s) :=
  congrArg Host.Outcome.next (unlessProtocolError_of_not_pe h)

/-- R108: the registers and fields each of the three outcomes writes. -/
theorem bodyVal_outcomes (P : Params) (s : State) :
    (hdrOk P s.frame = false → (bodyVal P s).v = false ∧ (bodyVal P s).err = 1 ∧ (bodyVal P s).sum = 0) ∧
    (hdrOk P s.frame = true → sum16 s.frame ≠ declared s.frame →
      (bodyVal P s).v = false ∧ (bodyVal P s).err = 2 ∧ (bodyVal P s).sum = sum16 s.frame) ∧
    (hdrOk P s.frame = true → sum16 s.frame = declared s.frame →
      (bodyVal P s).v = true ∧ (bodyVal P s).err = 0 ∧ (bodyVal P s).sum = sum16 s.frame) := by
  rcases bodyVal_cases P s with ⟨hh, hb⟩ | ⟨hh, hs, hb⟩ | ⟨hh, hs, hb⟩
  · simp [hb, hh, DataOutcome.code]
  · simp [hb, hh, hs, DataOutcome.code]
  · simp [hb, hh, hs, DataOutcome.code]

/-- R108: `VAL` restarts the pipeline whatever it finds: nothing of the later stages stays. -/
theorem bodyVal_later_stages (P : Params) (s : State) :
    (bodyVal P s).p = false ∧ (bodyVal P s).r = false ∧ (bodyVal P s).pm25 = 0 ∧
    (bodyVal P s).aqi = Config.aqiInvalid ∧ (bodyVal P s).cat = Config.catInvalid := by
  rcases bodyVal_cases P s with ⟨-, hb⟩ | ⟨-, -, hb⟩ | ⟨-, -, hb⟩
  · simp [hb]
  · simp [hb]
  · simp [hb]

/-- `ST.V <- b` reaches no other bit of `ST`. -/
theorem setV_outside (b : Bool) (s : State) : SameStatusOutside 0x0001 s (s.setV b) :=
  putField_outside (by decide)

/-- R108: of `ST` only the stage bits and `ERR` change. -/
theorem bodyVal_outside (P : Params) (s : State) : SameStatusOutside 0x0077 s (bodyVal P s) := by
  have hstages : SameStatusOutside 0x0077 s (invalidateFrom .val s) := (invalidateFrom_outside .val s).mono (by decide)
  have herr (o : DataOutcome) (u : State) : SameStatusOutside 0x0077 u (u.setErr o) := (setErr_outside o u).mono (by decide)
  have hsum : SameStatusOutside 0x0077 s ((invalidateFrom .val s).setSum (sum16 s.frame)) := hstages
  rcases bodyVal_cases P s with ⟨-, hb⟩ | ⟨-, -, hb⟩ | ⟨-, -, hb⟩
  · rw [hb]
    exact hstages.trans (herr _ _)
  · rw [hb]
    exact hsum.trans (herr _ _)
  · rw [hb]
    exact (hsum.trans ((setV_outside true _).mono (by decide))).trans (herr _ _)

/-- R108: `VAL` reads the frame and the host's side stays. -/
theorem bodyVal_same (P : Params) (s : State) : SameFrame s (bodyVal P s) ∧ SameHost s (bodyVal P s) := by
  obtain ⟨hframe, hpending, haccepted, -⟩ := bodyVal_keeps P s
  exact ⟨fun a => congrArg (Memory.read · a) hframe, hpending, haccepted⟩

/-- Settles O20: the word is a closed computation; the rest is what `VAL`'s body writes and what it keeps. -/
theorem valChecksTheFrame : Obligations.ValChecksTheFrame := by
  refine ⟨?word, fun s hpe => ⟨bodyVal built s, exec_val_of_not_pe hpe, ?rest⟩⟩
  case word => decide
  case rest =>
    obtain ⟨hheader, hmismatch, hvalid⟩ := bodyVal_outcomes built s
    obtain ⟨hp, hr, hpm25, haqi, hcat⟩ := bodyVal_later_stages built s
    exact ⟨hheader, hmismatch, hvalid, hp, hr, hpm25, haqi, hcat, bodyVal_outside built s, bodyVal_same built s⟩

/-! ### A wrong header -/

/-- R105: what `VAL` and `RUN` do with a wrong header. It reads no byte of the frame. -/
def rejectHeader (s : State) : State := (invalidateFrom .val s).setErr .invalidHeader

theorem bodyVal_of_bad_header {P : Params} {s : State} (h : hdrOk P s.frame = false) : bodyVal P s = rejectHeader s := by
  simp [bodyVal, rejectHeader, h]

theorem rejectHeader_fields (s : State) :
    (rejectHeader s).err = 1 ∧ (rejectHeader s).sum = 0 ∧ (rejectHeader s).pm25 = 0 ∧ (rejectHeader s).v = false := by
  simp [rejectHeader, DataOutcome.code]

/-- R160: a wrong header ends `RUN` after its `VAL`. -/
theorem bodyRun_of_bad_header {P : Params} {s : State} (h : hdrOk P s.frame = false) : bodyRun P s = rejectHeader s := by
  have hval : bodyVal P s = rejectHeader s := bodyVal_of_bad_header h
  obtain ⟨-, -, -, hv⟩ := rejectHeader_fields s
  rw [bodyRun_of_not_v (by rw [hval, hv]), hval]

/-- R93, R105: with a wrong header both commands are `rejectHeader`, with and without protocol error. -/
theorem exec_val_of_bad_header {s : State} (h : hdrOk built s.frame = false) :
    exec .val s = .next (unlessProtocolError rejectHeader s) := by
  simp [exec_eq_effectAt, effectAt, unlessProtocolError, bodyVal_of_bad_header h]

theorem exec_run_of_bad_header {s : State} (h : hdrOk built s.frame = false) :
    exec .run s = .next (unlessProtocolError rejectHeader s) := by
  simp [exec_eq_effectAt, effectAt, unlessProtocolError, bodyRun_of_bad_header h]

/-- Rejecting a header commutes with replacing the frame, since it neither reads nor writes it. -/
theorem unlessProtocolError_rejectHeader_setFrame (s : State) (F : Memory) :
    unlessProtocolError rejectHeader (s.setFrame F) = (unlessProtocolError rejectHeader s).setFrame F := by
  cases hpe : s.pe with
  | true => rw [unlessProtocolError_of_pe hpe, unlessProtocolError_of_pe (s := s.setFrame F) hpe]
  | false =>
    rw [unlessProtocolError_of_not_pe hpe, unlessProtocolError_of_not_pe (s := s.setFrame F) hpe]
    rfl

/-- Settles O32: the two frames have the same wrong header, so that either command is `rejectHeader` on both. -/
theorem badHeaderShortCircuits : Obligations.BadHeaderShortCircuits := by
  intro s F h0 h1 hbad
  have hs : hdrOk built s.frame = false := by
    rw [← Bool.not_eq_true, hdrOk_built_iff]
    exact not_and_or.mpr hbad
  have hF : hdrOk built (s.setFrame F).frame = false := (hdrOk_congr built h0 h1).trans hs
  have hval : exec .val (s.setFrame F) = .next ((unlessProtocolError rejectHeader s).setFrame F) := by
    rw [exec_val_of_bad_header hF, unlessProtocolError_rejectHeader_setFrame]
  have hrun : exec .run (s.setFrame F) = .next ((unlessProtocolError rejectHeader s).setFrame F) := by
    rw [exec_run_of_bad_header hF, unlessProtocolError_rejectHeader_setFrame]
  refine ⟨⟨_, exec_val_of_bad_header hs, hval, fun hpe => ?_⟩, ⟨_, exec_run_of_bad_header hs, hrun, fun hpe => ?_⟩⟩
  · obtain ⟨herr, hsum, -, hv⟩ := rejectHeader_fields s
    rw [unlessProtocolError_of_not_pe hpe]
    exact ⟨herr, hsum, hv⟩
  · rw [unlessProtocolError_of_not_pe hpe]
    exact rejectHeader_fields s

end Sys2Proof.Machine
end

section
/-! PROOFS. The command `DEC` (spec/42_decode.md R120, R122). -/

namespace Sys2Proof.Machine

/-- R93: without protocol error `DEC` is its body. -/
theorem exec_dec_of_not_pe {s : State} (h : s.pe = false) : exec .dec s = .next (bodyDec built s) :=
  congrArg Host.Outcome.next (unlessProtocolError_of_not_pe h)

/-- R122: on a frame that is not validated `DEC` raises NOT_VALIDATED. -/
theorem bodyDec_of_not_v {P : Params} {s : State} (h : s.v = false) :
    bodyDec P s = raiseProtocolError .notValidated s := by
  rcases bodyDec_cases P s with ⟨-, hb⟩ | ⟨hv, -⟩
  · exact hb
  · simp [h] at hv

/-- R122: on a validated frame `DEC` invalidates the index and extracts the concentration. -/
theorem bodyDec_of_v {P : Params} {s : State} (h : s.v = true) :
    bodyDec P s = (((invalidateFrom .aqi s).setPm25 (decodePm25 P s.frame)).setP true).setErr .none := by
  rcases bodyDec_cases P s with ⟨hv, -⟩ | ⟨-, hb⟩
  · simp [h] at hv
  · exact hb

/-- R122: what `DEC` writes on a validated frame. -/
theorem bodyDec_writes_of_v (P : Params) {s : State} (h : s.v = true) :
    (bodyDec P s).pm25 = decodePm25 P s.frame ∧ (bodyDec P s).p = true ∧ (bodyDec P s).r = false ∧
    (bodyDec P s).err = 0 ∧ (bodyDec P s).aqi = Config.aqiInvalid ∧ (bodyDec P s).cat = Config.catInvalid := by
  simp [bodyDec_of_v h, DataOutcome.code]

/-- `ST.P <- b` reaches no other bit of `ST`. -/
theorem setP_outside (b : Bool) (s : State) : SameStatusOutside 0x0002 s (s.setP b) :=
  putField_outside (by decide)

/-- Invalidation from stage `aqi` on is that of stage `aqi` alone, and reaches no bit of `ST` but `R`. -/
theorem invalidateFrom_aqi_outside (s : State) : SameStatusOutside 0x0004 s (invalidateFrom .aqi s) :=
  putField_outside (by decide)

/-- R122: on a validated frame only `P`, `R` and `ERR` change in `ST`, so that `V` stays. -/
theorem bodyDec_outside_of_v (P : Params) {s : State} (h : s.v = true) :
    SameStatusOutside 0x0076 s (bodyDec P s) := by
  have hpm25 : SameStatusOutside 0x0076 s ((invalidateFrom .aqi s).setPm25 (decodePm25 P s.frame)) :=
    (invalidateFrom_aqi_outside s).mono (by decide)
  rw [bodyDec_of_v h]
  exact (hpm25.trans ((setP_outside true _).mono (by decide))).trans ((setErr_outside .none _).mono (by decide))

/-- R122: `DEC` reads the frame and the host's side stays, with either outcome. -/
theorem bodyDec_same (P : Params) (s : State) : SameFrame s (bodyDec P s) ∧ SameHost s (bodyDec P s) := by
  obtain ⟨hframe, hpending, haccepted, -⟩ := bodyDec_keeps P s
  exact ⟨fun a => congrArg (Memory.read · a) hframe, hpending, haccepted⟩

/-- Settles O21: without protocol error `DEC` is its body, and `V` decides which of the body's two outcomes it is. -/
theorem decExtractsTheConcentration : Obligations.DecExtractsTheConcentration := by
  refine ⟨?word, fun s hpe => ⟨fun hv => ?validated, fun hv => ?notValidated⟩⟩
  case word => decide
  case validated =>
    obtain ⟨hpm25, hp, hr, herr, haqi, hcat⟩ := bodyDec_writes_of_v built hv
    obtain ⟨-, -, -, -, hsum, -⟩ := bodyDec_keeps built s
    have hconc : (bodyDec built s).pm25.toNat = (s.frame.read 0x0C).toNat * 256 + (s.frame.read 0x0D).toNat := by
      rw [hpm25]
      exact s.frame.toNat_be16 built.pm25Off
    exact ⟨_, exec_dec_of_not_pe hpe, hconc, hp, hr, herr, haqi, hcat, hsum, bodyDec_outside_of_v built hv,
      bodyDec_same built s⟩
  case notValidated =>
    have hexec : exec .dec s = .next (raiseProtocolError .notValidated s) := by
      rw [exec_dec_of_not_pe hpe, bodyDec_of_not_v hv]
    exact ⟨_, hexec, raiseProtocolError_effect .notValidated s⟩

end Sys2Proof.Machine
end

section
/-! PROOFS. The breakpoint table: what its check says, item by item (spec/43_aqi.md R130, R131). -/

namespace Sys2Proof

/-! ### The check of one entry and of one pair -/

/-- R130 and R131 items 3 and 6. -/
theorem Band.wf_iff (b : Band) :
    b.wf = true ↔ b.cl < b.ch ∧ b.ch < 65536 ∧ b.il ≤ b.ih ∧ b.ih ≤ 500 ∧ b.cat.toNat ≤ 5 := by
  simp [Band.wf, BitVec.le_def, and_assoc]

/-- R131 items 4 and 5. -/
theorem Band.follows_iff (upper lower : Band) :
    upper.follows lower = true ↔ (upper.cl = lower.ch + 1 ∨ upper.cl = lower.ch) ∧ lower.ih ≤ upper.il := by
  simp [Band.follows]

/-! ### The check of the table -/

/-- Every entry is well-formed, and the chain of R131 items 4 and 5 runs through the whole table. -/
theorem bandsChain_iff (t : List Band) :
    bandsChain t = true ↔
      (∀ b ∈ t, b.wf = true) ∧ t.IsChain (fun lower upper => upper.follows lower = true) := by
  induction t with
  | nil => simp [bandsChain]
  | cons b u ih =>
    cases u with
    | nil => simp [bandsChain]
    | cons c u =>
      simp only [bandsChain, Bool.and_eq_true, ih, List.forall_mem_cons, List.isChain_cons_cons]
      tauto

/-- A relation along a list is a relation of each entry with the one after it. -/
theorem isChain_iff_getElem?_succ {α : Type} {R : α → α → Prop} {l : List α} :
    l.IsChain R ↔ ∀ (i : Nat) (x y : α), l[i]? = some x → l[i + 1]? = some y → R x y := by
  rw [List.isChain_iff_getElem]
  constructor
  · intro h i x y hx hy
    obtain ⟨hi, rfl⟩ := List.getElem?_eq_some_iff.mp hy
    obtain ⟨_, rfl⟩ := List.getElem?_eq_some_iff.mp hx
    exact h i hi
  · intro h i hi
    exact h i _ _ (List.getElem?_eq_getElem _) (List.getElem?_eq_getElem hi)

/-- R131 item 2: the first entry starts from 0. -/
theorem head_cl_eq_zero_iff (t : List Band) : t.head?.map Band.cl = some 0 ↔ ∃ b, t[0]? = some b ∧ b.cl = 0 := by
  rw [Option.map_eq_some_iff, List.head?_eq_getElem?]

/-- R131, all items. -/
theorem tableWf_iff (t : List Band) :
    tableWf t = true ↔
      1 ≤ t.length ∧ t.length ≤ 8 ∧ (∃ b, t[0]? = some b ∧ b.cl = 0) ∧
      (∀ b ∈ t, b.cl < b.ch ∧ b.ch < 65536 ∧ b.il ≤ b.ih ∧ b.ih ≤ 500 ∧ b.cat.toNat ≤ 5) ∧
      (∀ (i : Nat) (lower upper : Band), t[i]? = some lower → t[i + 1]? = some upper →
        (upper.cl = lower.ch + 1 ∨ upper.cl = lower.ch) ∧ lower.ih ≤ upper.il) := by
  simp only [tableWf, Bool.and_eq_true, decide_eq_true_eq, bandsChain_iff, isChain_iff_getElem?_succ,
    head_cl_eq_zero_iff, Band.wf_iff, Band.follows_iff, and_assoc]

end Sys2Proof

namespace Sys2Proof.Machine

/-! ### The built table -/

/-- R131: every neighbouring pair of the built table is adjacent by the `+1` form. -/
theorem builtTable_adjacent (i : Nat) (lower upper : Band) (hlower : builtTable[i]? = some lower)
    (hupper : builtTable[i + 1]? = some upper) : upper.cl = lower.ch + 1 := by
  have hchain : builtTable.IsChain (fun lower upper => upper.cl = lower.ch + 1) := by decide
  exact isChain_iff_getElem?_succ.mp hchain i lower upper hlower hupper

theorem builtTable_wf : tableWf builtTable = true := by decide

/-- Settles O39: the check is the conjunction of its items, and the built table is run through it. -/
theorem tableConditions : Obligations.TableConditions :=
  ⟨tableWf_iff, builtTable_wf, builtTable_adjacent⟩

end Sys2Proof.Machine
end

section
/-! PROOFS. The band of a value and `compute` (spec/43_aqi.md R134 to R136, R138, R139). -/

namespace Sys2Proof.Machine

/-! ### The band of a value -/

/-- R135: `bandFrom` finds no entry, or the last one whose `Cl` is at most the value, counted from where it starts. -/
theorem bandFrom_cases (k : Nat) (t : List Band) (v : Nat) :
    (bandFrom k t v = none ∧ ∀ b ∈ t, v < b.cl) ∨
    (∃ i b, bandFrom k t v = some (k + i) ∧ t[i]? = some b ∧ b.cl ≤ v ∧
      ∀ (j : Nat) (b' : Band), t[j]? = some b' → b'.cl ≤ v → j ≤ i) := by
  induction t generalizing k with
  | nil => simp [bandFrom]
  | cons c t ih =>
    rcases ih (k + 1) with ⟨hnone, habove⟩ | ⟨i, b, hsome, hb, hcl, hlast⟩
    · by_cases hc : c.cl ≤ v
      · refine .inr ⟨0, c, by simp [bandFrom, hnone, hc], rfl, hc, fun j b' hj hle => ?_⟩
        cases j with
        | zero => exact le_rfl
        | succ j => exact absurd hle (habove b' (List.mem_of_getElem? hj)).not_ge
      · exact .inl ⟨by simp [bandFrom, hnone, hc], List.forall_mem_cons.mpr ⟨not_le.mp hc, habove⟩⟩
    · refine .inr ⟨i + 1, b, by simp [bandFrom, hsome]; omega, hb, hcl, fun j b' hj hle => ?_⟩
      cases j with
      | zero => exact Nat.zero_le _
      | succ j => exact Nat.succ_le_succ (hlast j b' hj hle)

/-- R131 item 2: a well-formed table starts from 0, so that every value has a band. -/
theorem band_of_tableWf {t : List Band} (ht : tableWf t = true) (v : Nat) :
    ∃ i b, band t v = some i ∧ t[i]? = some b ∧ b.cl ≤ v ∧
      ∀ (j : Nat) (b' : Band), t[j]? = some b' → b'.cl ≤ v → j ≤ i := by
  obtain ⟨-, -, ⟨first, hfirst, hzero⟩, -, -⟩ := (tableWf_iff t).mp ht
  rcases bandFrom_cases 0 t v with ⟨-, habove⟩ | h
  · have hlt : v < first.cl := habove first (List.mem_of_getElem? hfirst)
    omega
  · simpa [band] using h

/-- R134: `VMAX` is the upper bound of the last entry. -/
theorem vmax_of_last {t : List Band} {i : Nat} {b : Band} (hb : t[i]? = some b) (hlast : t[i + 1]? = none) :
    vmax t = b.ch := by
  obtain ⟨hi, -⟩ := List.getElem?_eq_some_iff.mp hb
  have hlen : t.length - 1 = i := by
    have := List.getElem?_eq_none_iff.mp hlast
    omega
  simp [vmax, List.getLast?_eq_getElem?, hlen, hb]

/-- R135: the band of a value in range contains it, since the next entry starts above the value and leaves no gap. -/
theorem band_contains {t : List Band} (ht : tableWf t = true) {v : Nat} (hv : v ≤ vmax t) :
    ∃ i b, band t v = some i ∧ t[i]? = some b ∧ b.cl ≤ v ∧ v ≤ b.ch ∧
      ∀ (j : Nat) (b' : Band), t[j]? = some b' → b'.cl ≤ v → j ≤ i := by
  obtain ⟨i, b, hband, hb, hcl, hlast⟩ := band_of_tableWf ht v
  refine ⟨i, b, hband, hb, hcl, ?_, hlast⟩
  cases hnext : t[i + 1]? with
  | none => exact vmax_of_last hb hnext ▸ hv
  | some upper =>
    obtain ⟨-, -, -, -, hpairs⟩ := (tableWf_iff t).mp ht
    obtain ⟨hadjacent, -⟩ := hpairs i b upper hb hnext
    have habove : v < upper.cl := by
      by_contra hle
      exact absurd (hlast (i + 1) upper hnext (not_lt.mp hle)) (by omega)
    omega

/-! ### The interpolated index -/

/-- R138 (a): with `v <= Ch` the rounded quotient is at most the span, so that the index is at most `Ih`. -/
theorem interp_le_ih {b : Band} {v : Nat} (hb : b.wf = true) (hv : v ≤ b.ch) : interp b v ≤ b.ih := by
  obtain ⟨hc, -, hi, -, -⟩ := b.wf_iff.mp hb
  have hnum : (b.ih - b.il) * (v - b.cl) ≤ (b.ih - b.il) * (b.ch - b.cl) :=
    Nat.mul_le_mul_left _ (Nat.sub_le_sub_right hv _)
  have hden : 2 * (b.ch - b.cl) * (b.ih - b.il + 1) = 2 * ((b.ih - b.il) * (b.ch - b.cl)) + 2 * (b.ch - b.cl) := by
    ring
  have hq : (2 * ((b.ih - b.il) * (v - b.cl)) + (b.ch - b.cl)) / (2 * (b.ch - b.cl)) < b.ih - b.il + 1 :=
    Nat.div_lt_of_lt_mul (by omega)
  simp only [interp]
  omega

/-! ### `compute` -/

/-- R134: above `CMAX` there is no index. -/
theorem compute_of_cmax_lt {t : List Band} {c : Word} (h : cmax t < c.toNat) : compute t c = .outOfRange :=
  if_pos h

/-- R134: whole concentrations up to `CMAX` are those whose tenths are at most `VMAX`. -/
theorem le_cmax_iff (t : List Band) (n : Nat) : n ≤ cmax t ↔ 10 * n ≤ vmax t := by
  rw [cmax, Nat.le_div_iff_mul_le (by decide), Nat.mul_comm]

/-- R139: up to `CMAX` it is the interpolated index and the category of the band. -/
theorem compute_of_band {t : List Band} {c : Word} {i : Nat} {b : Band} (hc : c.toNat ≤ cmax t)
    (hband : band t (10 * c.toNat) = some i) (hb : t[i]? = some b) :
    compute t c = .result (BitVec.ofNat 16 (interp b (10 * c.toNat))) b.cat := by
  simp [compute, hc.not_gt, hband, hb]

/-- Settles O44: up to `CMAX` the value lies in its band, so that the index is at most 500 and 16 bits hold it. -/
theorem computeAnswers : Obligations.ComputeAnswers := by
  refine fun t ht => ⟨fun c hc => ?_, fun c hc => compute_of_cmax_lt hc⟩
  obtain ⟨i, b, hband, hb, -, hch, -⟩ := band_contains ht ((le_cmax_iff t c.toNat).mp hc)
  obtain ⟨-, -, -, hentries, -⟩ := (tableWf_iff t).mp ht
  have hentry := hentries b (List.mem_of_getElem? hb)
  have hindex : interp b (10 * c.toNat) ≤ b.ih := interp_le_ih (b.wf_iff.mpr hentry) hch
  obtain ⟨-, -, -, hih, -⟩ := hentry
  exact ⟨i, b, hband, hb, _, compute_of_band hc hband hb, Nat.mod_eq_of_lt (by omega)⟩

end Sys2Proof.Machine
end

section
/-! PROOFS. The command `AQI` (spec/43_aqi.md R140). -/

namespace Sys2Proof.Machine

/-- R93: without protocol error `AQI` is its body. -/
theorem exec_aqi_of_not_pe {s : State} (h : s.pe = false) : exec .aqi s = .next (bodyAqi built s) :=
  congrArg Host.Outcome.next (unlessProtocolError_of_not_pe h)

/-- R140: without a concentration `AQI` raises NO_CONCENTRATION. -/
theorem bodyAqi_of_not_p {P : Params} {s : State} (h : s.p = false) :
    bodyAqi P s = raiseProtocolError .noConcentration s := by
  rcases bodyAqi_cases P s with ⟨-, hb⟩ | ⟨hp, -, -⟩ | ⟨_, _, hp, -, -⟩
  · exact hb
  · simp [h] at hp
  · simp [h] at hp

/-- R140: what `AQI` writes where the concentration is above the table. -/
theorem bodyAqi_writes_of_outOfRange {P : Params} {s : State} (h : s.p = true)
    (hc : compute P.bpTable s.pm25 = .outOfRange) :
    (bodyAqi P s).r = false ∧ (bodyAqi P s).err = 3 ∧ (bodyAqi P s).aqi = Config.aqiInvalid ∧
    (bodyAqi P s).cat = Config.catInvalid := by
  rcases bodyAqi_cases P s with ⟨hp, -⟩ | ⟨-, -, hb⟩ | ⟨_, _, -, hresult, -⟩
  · simp [h] at hp
  · simp [hb, DataOutcome.code]
  · simp [hc] at hresult

/-- R140: what `AQI` writes where the concentration has an index. -/
theorem bodyAqi_writes_of_result {P : Params} {s : State} {x : Word} {k : BitVec 3} (h : s.p = true)
    (hc : compute P.bpTable s.pm25 = .result x k) :
    (bodyAqi P s).r = true ∧ (bodyAqi P s).err = 0 ∧ (bodyAqi P s).aqi = x ∧ (bodyAqi P s).cat = k := by
  rcases bodyAqi_cases P s with ⟨hp, -⟩ | ⟨-, houtOfRange, -⟩ | ⟨idx, cat, -, hresult, hb⟩
  · simp [h] at hp
  · simp [hc] at houtOfRange
  · obtain ⟨rfl, rfl⟩ : x = idx ∧ k = cat := by simpa [hc] using hresult
    simp [hb, DataOutcome.code]

/-- `ST.R <- b` reaches no other bit of `ST`. -/
theorem setR_outside (b : Bool) (s : State) : SameStatusOutside 0x0004 s (s.setR b) :=
  putField_outside (by decide)

/-- R140: with a concentration only `R` and `ERR` change in `ST`, so that `V` and `P` stay. -/
theorem bodyAqi_outside_of_p (P : Params) {s : State} (h : s.p = true) :
    SameStatusOutside 0x0074 s (bodyAqi P s) := by
  have hinvalid : SameStatusOutside 0x0074 s (invalidateFrom .aqi s) := (invalidateFrom_aqi_outside s).mono (by decide)
  have herr (o : DataOutcome) (u : State) : SameStatusOutside 0x0074 u (u.setErr o) := (setErr_outside o u).mono (by decide)
  rcases bodyAqi_cases P s with ⟨hp, -⟩ | ⟨-, -, hb⟩ | ⟨idx, cat, -, -, hb⟩
  · simp [h] at hp
  · rw [hb]
    exact hinvalid.trans (herr _ _)
  · have hwritten : SameStatusOutside 0x0074 s (((invalidateFrom .aqi s).setAqi idx).setCat cat) := hinvalid
    rw [hb]
    exact (hwritten.trans ((setR_outside true _).mono (by decide))).trans (herr _ _)

/-- R140: `AQI` does not touch the frame and the host's side stays, with every outcome. -/
theorem bodyAqi_same (P : Params) (s : State) : SameFrame s (bodyAqi P s) ∧ SameHost s (bodyAqi P s) := by
  obtain ⟨hframe, hpending, haccepted, -⟩ := bodyAqi_keeps P s
  exact ⟨fun a => congrArg (Memory.read · a) hframe, hpending, haccepted⟩

/-! ### The built table -/

/-- R134: `CMAX` of the default table. -/
theorem cmax_builtTable : cmax builtTable = 325 := by decide

/-- R140, with R134's `CMAX` of the default table: above 325 µg/m³ `AQI` is OUT_OF_RANGE. -/
theorem bodyAqi_built_of_lt {s : State} (hp : s.p = true) (hc : 325 < s.pm25.toNat) :
    (bodyAqi built s).r = false ∧ (bodyAqi built s).err = 3 ∧ (bodyAqi built s).aqi = Config.aqiInvalid ∧
    (bodyAqi built s).cat = Config.catInvalid :=
  bodyAqi_writes_of_outOfRange hp (compute_of_cmax_lt (cmax_builtTable ▸ hc))

/-- R140: up to 325 µg/m³ `AQI` shows what `compute` gives. -/
theorem bodyAqi_built_of_le {s : State} (hp : s.p = true) (hc : s.pm25.toNat ≤ 325) :
    (bodyAqi built s).r = true ∧ (bodyAqi built s).err = 0 ∧
    compute builtTable s.pm25 = .result (bodyAqi built s).aqi (bodyAqi built s).cat := by
  obtain ⟨hinRange, -⟩ := computeAnswers builtTable builtTable_wf
  obtain ⟨i, b, -, -, x, hresult, -⟩ := hinRange s.pm25 (cmax_builtTable ▸ hc)
  obtain ⟨hr, herr, haqi, hcat⟩ := bodyAqi_writes_of_result (P := built) hp hresult
  exact ⟨hr, herr, by rw [haqi, hcat, hresult]⟩

/-- R140 at one concentration of the table of 95_test_vectors.md section 2.5. -/
theorem bodyAqi_built_of_row {s : State} {c x : Word} {k : BitVec 3} (hp : s.p = true)
    (hrow : compute builtTable c = .result x k) (hc : s.pm25 = c) :
    (bodyAqi built s).aqi = x ∧ (bodyAqi built s).cat = k := by
  obtain ⟨-, -, haqi, hcat⟩ := bodyAqi_writes_of_result (P := built) hp (hc ▸ hrow)
  exact ⟨haqi, hcat⟩

/-- Settles O22: without protocol error `AQI` is its body; with a concentration `CMAX` decides which of the body's two
outcomes it is, and the three named indices are rows of `compute`. -/
theorem aqiWritesTheComputedIndex : Obligations.AqiWritesTheComputedIndex := by
  refine ⟨?word, fun s hpe => ⟨fun hp => ?concentration, fun hp => ?noConcentration⟩⟩
  case word => decide
  case concentration =>
    have h0 : compute builtTable 0 = .result 0 0 := by decide
    have h41 : compute builtTable 41 = .result 115 2 := by decide
    have h325 : compute builtTable 325 = .result 499 5 := by decide
    obtain ⟨-, -, -, -, -, hsum, hpm25, -⟩ := bodyAqi_keeps built s
    exact ⟨_, exec_aqi_of_not_pe hpe, bodyAqi_built_of_lt hp, bodyAqi_built_of_le hp, bodyAqi_built_of_row hp h0,
      bodyAqi_built_of_row hp h41, bodyAqi_built_of_row hp h325, hsum, hpm25, bodyAqi_outside_of_p built hp,
      bodyAqi_same built s⟩
  case noConcentration =>
    have hexec : exec .aqi s = .next (raiseProtocolError .noConcentration s) := by
      rw [exec_aqi_of_not_pe hpe, bodyAqi_of_not_p hp]
    exact ⟨_, hexec, raiseProtocolError_effect .noConcentration s⟩

end Sys2Proof.Machine
end

section
/-! PROOFS. The word of `ST` in a state whose bits 15:7 and `PE` are zero (spec/10_state.md R27). -/

namespace Sys2Proof.Machine

/-- R27: the word of `ST` whose bits 15:7 and `PE` are zero, from its other fields. -/
def statusWord (v p r : Bool) (err : BitVec 3) : Word :=
  0#9 ++ err ++ 0#1 ++ BitVec.ofBool r ++ BitVec.ofBool p ++ BitVec.ofBool v

/-- R27: each field of the layout reads as it was put together. -/
theorem getField_statusWord (v p r : Bool) (err : BitVec 3) :
    getField (statusWord v p r err) 0 1 = BitVec.ofBool v ∧ getField (statusWord v p r err) 1 1 = BitVec.ofBool p ∧
    getField (statusWord v p r err) 2 1 = BitVec.ofBool r ∧ getField (statusWord v p r err) 3 1 = 0 ∧
    getField (statusWord v p r err) 4 3 = err ∧ getField (statusWord v p r err) 7 1 = 0 ∧
    getField (statusWord v p r err) 8 2 = 0 ∧ getField (statusWord v p r err) 10 6 = 0 := by
  decide +revert

/-- A one-bit field is its truth value as a bit. -/
theorem ofBool_decide_eq_one (x : BitVec 1) : BitVec.ofBool (decide (x = 1#1)) = x := by decide +revert

/-- A field above every bit that is set is zero. -/
theorem getField_eq_zero_of_lt {x : Word} {lo : Nat} (n : Nat) (h : x.toNat < 2 ^ lo) : getField x lo n = 0 := by
  apply BitVec.eq_of_toNat_eq
  simp [getField, Nat.shiftRight_eq_div_pow, Nat.div_eq_of_lt h]

/-- A field that the mask does not meet is as before. -/
theorem SameStatusOutside.getField_eq {mask : Word} {s t : State} {lo n : Nat} (h : SameStatusOutside mask s t)
    (hmask : getField (~~~mask) lo n = BitVec.allOnes n) : getField t.st lo n = getField s.st lo n := by
  have hfield (x : Word) : getField (x &&& ~~~mask) lo n = getField x lo n := by
    have hand : getField (x &&& ~~~mask) lo n = getField x lo n &&& getField (~~~mask) lo n :=
      BitVec.extractLsb'_and
    rw [hand, hmask, BitVec.and_allOnes]
  rw [← hfield t.st, ← hfield s.st, h]

/-- R27: where bits 15:7 and `PE` were zero and nothing outside the stage bits and `ERR` changed, those fields are the
whole word of `ST`. -/
theorem st_eq_statusWord {s t : State} (hout : SameStatusOutside 0x0077 s t) (hpe : s.pe = false)
    (hlow : s.st.toNat < 128) : t.st = statusWord t.v t.p t.r t.err := by
  obtain ⟨hv, hp, hr, hpe', herr, h7, hpec, h10⟩ := getField_statusWord t.v t.p t.r t.err
  have hzero {lo : Nat} (n : Nat) (hlo : 128 ≤ 2 ^ lo) : getField s.st lo n = 0 :=
    getField_eq_zero_of_lt n (hlow.trans_le hlo)
  have hpeBit : getField s.st 3 1 = 0 := (ofBool_decide_eq_one _).symm.trans (congrArg BitVec.ofBool hpe)
  apply status_ext
  case hv => exact (ofBool_decide_eq_one _).symm.trans hv.symm
  case hp => exact (ofBool_decide_eq_one _).symm.trans hp.symm
  case hr => exact (ofBool_decide_eq_one _).symm.trans hr.symm
  case herr => exact herr.symm
  case hpe => rw [hout.getField_eq (by decide), hpeBit, hpe']
  case h7 => rw [hout.getField_eq (by decide), hzero 1 (by decide), h7]
  case hpec => rw [hout.getField_eq (by decide), hzero 2 (by decide), hpec]
  case h10 => rw [hout.getField_eq (by decide), hzero 6 (by decide), h10]

end Sys2Proof.Machine
end

section
/-! PROOFS. The command `RUN` (spec/44_pipeline.md R160). -/

namespace Sys2Proof.Machine

/-- R93: without protocol error `RUN` is its body. -/
theorem exec_run_of_not_pe {s : State} (h : s.pe = false) : exec .run s = .next (bodyRun built s) :=
  congrArg Host.Outcome.next (unlessProtocolError_of_not_pe h)

/-! ### The stages by the verdict -/

/-- R104, R108: `VAL` by the verdict: `V`, `ERR` and `SUM`. -/
theorem bodyVal_of_verdict (P : Params) (s : State) :
    (validate P s.frame = .invalidHeader → (bodyVal P s).v = false ∧ (bodyVal P s).err = 1 ∧ (bodyVal P s).sum = 0) ∧
    (validate P s.frame = .checksumMismatch →
      (bodyVal P s).v = false ∧ (bodyVal P s).err = 2 ∧ (bodyVal P s).sum = sum16 s.frame) ∧
    (validate P s.frame = .valid →
      (bodyVal P s).v = true ∧ (bodyVal P s).err = 0 ∧ (bodyVal P s).sum = sum16 s.frame) := by
  obtain ⟨hheader, hmismatch, hvalid⟩ := bodyVal_outcomes P s
  obtain ⟨hiffHeader, hiffMismatch, hiffValid⟩ := validateAnswers P s.frame
  rw [hiffHeader, hiffMismatch, hiffValid, and_imp, and_imp]
  exact ⟨hheader, hmismatch, hvalid⟩

/-- R160: what `DEC` leaves for `AQI` after a validation that succeeded. -/
theorem bodyDec_after_val {P : Params} {s : State} (h : (bodyVal P s).v = true) :
    (bodyDec P (bodyVal P s)).v = true ∧ (bodyDec P (bodyVal P s)).p = true ∧
    (bodyDec P (bodyVal P s)).sum = (bodyVal P s).sum ∧
    (bodyDec P (bodyVal P s)).pm25 = decodePm25 P s.frame := by
  obtain ⟨hpm25, hp, -⟩ := bodyDec_writes_of_v P h
  obtain ⟨-, -, -, hv, hsum, -⟩ := bodyDec_keeps P (bodyVal P s)
  obtain ⟨hframe, -⟩ := bodyVal_keeps P s
  exact ⟨hv.trans h, hp, hsum, hframe ▸ hpm25⟩

/-- R160: on a frame that validates, `RUN` ends with `AQI` on what `VAL` and `DEC` wrote. -/
theorem bodyRun_eq_bodyAqi_of_valid {P : Params} {s : State} (h : validate P s.frame = .valid) :
    ∃ u, bodyRun P s = bodyAqi P u ∧ u.v = true ∧ u.p = true ∧ u.sum = sum16 s.frame ∧
      u.pm25 = decodePm25 P s.frame := by
  obtain ⟨-, -, hvalid⟩ := bodyVal_of_verdict P s
  obtain ⟨hval, -, hsumVal⟩ := hvalid h
  obtain ⟨hv, hp, hsum, hpm25⟩ := bodyDec_after_val hval
  exact ⟨bodyDec P (bodyVal P s), bodyRun_of_v hval, hv, hp, hsum.trans hsumVal, hpm25⟩

/-- R160: on a frame that validates, `RUN` shows what `VAL` and `DEC` wrote, since `AQI` keeps it. -/
theorem bodyRun_writes_of_valid {P : Params} {s : State} (h : validate P s.frame = .valid) :
    (bodyRun P s).v = true ∧ (bodyRun P s).p = true ∧ (bodyRun P s).sum = sum16 s.frame ∧
    (bodyRun P s).pm25 = decodePm25 P s.frame := by
  obtain ⟨u, hrun, hv, hp, hsum, hpm25⟩ := bodyRun_eq_bodyAqi_of_valid h
  obtain ⟨-, -, -, hvKept, hpKept, hsumKept, hpm25Kept, -⟩ := bodyAqi_keeps P u
  rw [hrun]
  exact ⟨hvKept.trans hv, hpKept.trans hp, hsumKept.trans hsum, hpm25Kept.trans hpm25⟩

/-- R160, with R134's `CMAX` of the default table: above 325 µg/m³ `RUN` is OUT_OF_RANGE. -/
theorem bodyRun_built_of_lt {s : State} (h : validate built s.frame = .valid)
    (hc : 325 < (decodePm25 built s.frame).toNat) :
    (bodyRun built s).r = false ∧ (bodyRun built s).err = 3 ∧ (bodyRun built s).aqi = Config.aqiInvalid ∧
    (bodyRun built s).cat = Config.catInvalid := by
  obtain ⟨u, hrun, -, hp, -, hpm25⟩ := bodyRun_eq_bodyAqi_of_valid h
  rw [hrun]
  exact bodyAqi_built_of_lt hp (hpm25 ▸ hc)

/-- R160: up to 325 µg/m³ `RUN` shows what `compute` gives for the decoded concentration. -/
theorem bodyRun_built_of_le {s : State} (h : validate built s.frame = .valid)
    (hc : (decodePm25 built s.frame).toNat ≤ 325) :
    (bodyRun built s).r = true ∧ (bodyRun built s).err = 0 ∧
    compute builtTable (decodePm25 built s.frame) = .result (bodyRun built s).aqi (bodyRun built s).cat := by
  obtain ⟨u, hrun, -, hp, -, hpm25⟩ := bodyRun_eq_bodyAqi_of_valid h
  rw [hrun, ← hpm25]
  exact bodyAqi_built_of_le hp (hpm25 ▸ hc)

/-! ### What stays -/

/-- R160: of `ST` only the stage bits and `ERR` change; `RUN` raises no protocol error. -/
theorem bodyRun_outside (P : Params) (s : State) : SameStatusOutside 0x0077 s (bodyRun P s) := by
  have hval : SameStatusOutside 0x0077 s (bodyVal P s) := bodyVal_outside P s
  cases hv : (bodyVal P s).v with
  | false => exact bodyRun_of_not_v hv ▸ hval
  | true =>
    obtain ⟨-, hp, -⟩ := bodyDec_after_val hv
    have hdec : SameStatusOutside 0x0077 (bodyVal P s) (bodyDec P (bodyVal P s)) :=
      (bodyDec_outside_of_v P hv).mono (by decide)
    have haqi : SameStatusOutside 0x0077 (bodyDec P (bodyVal P s)) (bodyAqi P (bodyDec P (bodyVal P s))) :=
      (bodyAqi_outside_of_p P hp).mono (by decide)
    rw [bodyRun_of_v hv]
    exact (hval.trans hdec).trans haqi

/-- R160: `RUN` reads the frame and the host's side stays, with every outcome. -/
theorem bodyRun_same (P : Params) (s : State) : SameFrame s (bodyRun P s) ∧ SameHost s (bodyRun P s) := by
  obtain ⟨hframe, hpending, haccepted⟩ := bodyRun_keeps P s
  exact ⟨fun a => congrArg (Memory.read · a) hframe, hpending, haccepted⟩

/-! ### The four rows -/

/-- R27, R160: the word of `ST` after `RUN` is that of its stage bits and of `ERR`. -/
theorem bodyRun_st {P : Params} {s : State} {v p r : Bool} {err : BitVec 3} (hpe : s.pe = false)
    (hv : (bodyRun P s).v = v) (hp : (bodyRun P s).p = p) (hr : (bodyRun P s).r = r) (herr : (bodyRun P s).err = err)
    (hlow : s.st.toNat < 128) : (bodyRun P s).st = statusWord v p r err := by
  rw [st_eq_statusWord (bodyRun_outside P s) hpe hlow, hv, hp, hr, herr]

/-- R160, the two rows of a validation that fails: `RUN` shows what `VAL` wrote and nothing of the later stages. -/
theorem bodyRun_row_of_not_v {P : Params} {s : State} {err : BitVec 3} {sum : Word} (hpe : s.pe = false)
    (hval : (bodyVal P s).v = false ∧ (bodyVal P s).err = err ∧ (bodyVal P s).sum = sum) :
    (bodyRun P s).v = false ∧ (bodyRun P s).p = false ∧ (bodyRun P s).r = false ∧ (bodyRun P s).err = err ∧
    (bodyRun P s).sum = sum ∧ (bodyRun P s).pm25 = 0 ∧ (bodyRun P s).aqi = Config.aqiInvalid ∧
    (bodyRun P s).cat = Config.catInvalid ∧
    (s.st.toNat < 128 → (bodyRun P s).st = statusWord false false false err) := by
  obtain ⟨hv, herr, hsum⟩ := hval
  obtain ⟨hp, hr, hpm25, haqi, hcat⟩ := bodyVal_later_stages P s
  rw [← bodyRun_of_not_v hv] at hp hr hpm25 haqi hcat herr hsum
  have hv' : (bodyRun P s).v = false := bodyRun_of_not_v hv ▸ hv
  exact ⟨hv', hp, hr, herr, hsum, hpm25, haqi, hcat, bodyRun_st hpe hv' hp hr herr⟩

/-- Settles O23: the verdict decides whether `RUN` ends after `VAL` or with `AQI` on the decoded concentration; the word of
`ST` is that of the fields each row names. -/
theorem runOutcomes : Obligations.RunOutcomes := by
  refine ⟨?word, fun s hpe => ?rows⟩
  case word => decide
  case rows =>
    obtain ⟨hheader, hmismatch, -⟩ := bodyVal_of_verdict built s
    refine ⟨bodyRun built s, exec_run_of_not_pe hpe, fun h => bodyRun_row_of_not_v hpe (hheader h),
      fun h => bodyRun_row_of_not_v hpe (hmismatch h), fun h hc => ?outOfRange, fun h hc => ?result,
      bodyRun_outside built s, bodyRun_same built s⟩
    case outOfRange =>
      obtain ⟨hv, hp, hsum, hpm25⟩ := bodyRun_writes_of_valid h
      obtain ⟨hr, herr, haqi, hcat⟩ := bodyRun_built_of_lt h hc
      exact ⟨hv, hp, hr, herr, hsum, hpm25, haqi, hcat, bodyRun_st hpe hv hp hr herr⟩
    case result =>
      obtain ⟨hv, hp, hsum, hpm25⟩ := bodyRun_writes_of_valid h
      obtain ⟨hr, herr, hcompute⟩ := bodyRun_built_of_le h hc
      exact ⟨hv, hp, hr, herr, hsum, hpm25, hpm25 ▸ hcompute, bodyRun_st hpe hv hp hr herr⟩

end Sys2Proof.Machine
end

section
/-! PROOFS. Protocol errors: their causes, codes and effect, and the state they leave (spec/60_exceptions.md R175, R176). -/

namespace Sys2Proof.Machine

/-! ### The causes of a protocol error -/

/-- R175: what leaves bit 3 of `ST` as it was leaves `PE` as it was. -/
theorem SameStatusOutside.pe_eq {mask : Word} {s t : State} (h : SameStatusOutside mask s t)
    (hmask : getField (~~~mask) 3 1 = BitVec.allOnes 1) : t.pe = s.pe := by
  rw [State.pe, State.pe, h.getField_eq hmask]

/-- R175: the protocol error a command raises in a state without one, if it raises any. -/
def protocolErrorOf (s : State) : Instr → Option ProtocolError
  | .dec => if s.v then none else some .notValidated
  | .aqi => if s.p then none else some .noConcentration
  | _ => none

theorem protocolErrorOf_dec (s : State) :
    protocolErrorOf s .dec = if s.v then none else some .notValidated := rfl

theorem protocolErrorOf_aqi (s : State) :
    protocolErrorOf s .aqi = if s.p then none else some .noConcentration := rfl

/-- R175: only `DEC` and `AQI` raise, each without what it reads. -/
theorem protocolErrorOf_eq_some_iff (s : State) (i : Instr) (e : ProtocolError) :
    protocolErrorOf s i = some e ↔
      (i = .dec ∧ s.v = false ∧ e = .notValidated) ∨ (i = .aqi ∧ s.p = false ∧ e = .noConcentration) := by
  cases i with
  | dec => cases hv : s.v <;> simp [protocolErrorOf_dec, hv, eq_comm (a := e)]
  | aqi => cases hp : s.p <;> simp [protocolErrorOf_aqi, hp, eq_comm (a := e)]
  | _ => simp [protocolErrorOf]

/-- R175: without protocol error a command that raises one is abandoned before it changes anything. -/
theorem exec_of_protocolError {s : State} {i : Instr} {e : ProtocolError} (hpe : s.pe = false)
    (h : protocolErrorOf s i = some e) : exec i s = .next (raiseProtocolError e s) := by
  rcases (protocolErrorOf_eq_some_iff s i e).mp h with ⟨rfl, hv, rfl⟩ | ⟨rfl, hp, rfl⟩
  · rw [exec_dec_of_not_pe hpe, bodyDec_of_not_v hv]
  · rw [exec_aqi_of_not_pe hpe, bodyAqi_of_not_p hp]

/-- R175: any other command ends without protocol error: it writes no bit of `ST` beside the stage bits and `ERR`, or resets. -/
theorem exec_of_no_protocolError {s : State} {i : Instr} (hpe : s.pe = false) (h : protocolErrorOf s i = none) :
    ∃ t, exec i s = .next t ∧ t.pe = false := by
  cases i with
  | nop => exact ⟨s, exec_nop s, hpe⟩
  | clr => exact ⟨resetAll s, exec_clr s, by simp⟩
  | ldb a d => exact ⟨_, exec_ldb_of_not_pe hpe a d, ((bodyLdb_outside a d s).pe_eq (by decide)).trans hpe⟩
  | val => exact ⟨_, exec_val_of_not_pe hpe, ((bodyVal_outside built s).pe_eq (by decide)).trans hpe⟩
  | run => exact ⟨_, exec_run_of_not_pe hpe, ((bodyRun_outside built s).pe_eq (by decide)).trans hpe⟩
  | dec =>
    have hv : s.v = true := by simpa [protocolErrorOf_dec] using h
    exact ⟨_, exec_dec_of_not_pe hpe, ((bodyDec_outside_of_v built hv).pe_eq (by decide)).trans hpe⟩
  | aqi =>
    have hp : s.p = true := by simpa [protocolErrorOf_aqi] using h
    exact ⟨_, exec_aqi_of_not_pe hpe, ((bodyAqi_outside_of_p built hp).pe_eq (by decide)).trans hpe⟩

/-- R176: while `PE = 1` an illegal word does nothing, so that `PEC` keeps the first error. -/
theorem execIllegal_of_pe {s : State} (h : s.pe = true) : execIllegal s = .next s :=
  congrArg Host.Outcome.next (unlessProtocolError_of_pe h)

/-- Settles O14: whether the command raises a protocol error decides its first clause; where it does, and for an illegal
word, the effect is that of `raiseProtocolError`. -/
theorem protocolErrorCausesAndEffect : Obligations.ProtocolErrorCausesAndEffect := by
  refine ⟨fun i s hpe => ?command, fun s hpe => ?illegal, fun s hpe => ?ignored⟩
  case command =>
    cases he : protocolErrorOf s i with
    | none =>
      obtain ⟨t, hexec, ht⟩ := exec_of_no_protocolError hpe he
      have hcause : ¬ ((i = .dec ∧ s.v = false) ∨ (i = .aqi ∧ s.p = false)) := by
        rintro (⟨rfl, hv⟩ | ⟨rfl, hp⟩)
        · simp [protocolErrorOf_dec, hv] at he
        · simp [protocolErrorOf_aqi, hp] at he
      exact ⟨t, hexec, by simp [ht, hcause], by simp [ht]⟩
    | some e =>
      have hexec : exec i s = .next (raiseProtocolError e s) := exec_of_protocolError hpe he
      obtain ⟨-, hpec, hkept⟩ := raiseProtocolError_effect e s
      rcases (protocolErrorOf_eq_some_iff s i e).mp he with ⟨rfl, hv, rfl⟩ | ⟨rfl, hp, rfl⟩
      · exact ⟨_, hexec, by simp [hv], fun _ => ⟨hpec, hkept⟩⟩
      · exact ⟨_, hexec, by simp [hp], fun _ => ⟨hpec, hkept⟩⟩
  case illegal => exact ⟨_, execIllegal_of_not_pe hpe, raiseProtocolError_effect .illegalCommand s⟩
  case ignored => exact ⟨execIllegal_of_pe hpe, fun i hi => exec_of_pe hpe hi⟩

/-! ### The step in the protocol-error state -/

/-- R93: a presented legal word is executed as its command. -/
theorem step_of_cmd {s : State} {w : Word} {rest : List PortSample} {i : Instr} (h : s.Presents w rest)
    (hw : decode w = .cmd i) : step s = exec i (s.afterAccept rest) := by
  simp [step, stepWith, fetch_of_presents h, hw, acceptWord, State.setAccepted, State.setPending]

/-- R21, R36: a sample with neither reset nor a valid word is taken and changes nothing else. -/
theorem step_of_not_valid {s : State} {e : PortSample} {rest : List PortSample} (hp : s.pending = e :: rest)
    (hr : e.rst = false) (hv : e.cmdValid = false) : step s = .next (s.setPending rest) := by
  simp [step, stepWith, fetch, hp, hr, hv]

/-- R176: while `PE = 1` every presented word but `CLR`'s, legal or not, is consumed and ignored. -/
theorem step_ignores_word {s : State} {w : Word} {rest : List PortSample} (hpe : s.pe = true) (h : s.Presents w rest)
    (hw : w ≠ 0x2000#16) : step s = .next (s.afterAccept rest) := by
  have htaken : (s.afterAccept rest).pe = true := hpe
  cases hd : decode w with
  | cmd i =>
    have hi : i ≠ .clr := fun hclr => hw ((decode_eq_clr_iff w).mp (hclr ▸ hd))
    rw [step_of_cmd h hd, exec_of_pe htaken hi]
  | illegal why => exact (step_of_illegal h hd).trans (execIllegal_of_pe htaken)

/-- R176: everything a step can do while `PE = 1`: reset or `CLR` resets, a cycle without a word and an ignored word leave
all but the host's side. -/
theorem step_cases_of_pe {s : State} {e : PortSample} {rest : List PortSample} (hpe : s.pe = true)
    (hp : s.pending = e :: rest) :
    ((e.rst = true ∨ (e.cmdValid = true ∧ e.cmd = 0x2000#16)) ∧ ∃ u, step s = .next (resetAll u)) ∨
    (e.rst = false ∧ e.cmdValid = false ∧ step s = .next (s.setPending rest)) ∨
    (e.rst = false ∧ e.cmdValid = true ∧ e.cmd ≠ 0x2000#16 ∧ step s = .next (s.afterAccept rest)) := by
  obtain ⟨rst, valid, w⟩ := e
  cases rst with
  | true => exact .inl ⟨.inl rfl, _, step_of_rst hp rfl⟩
  | false =>
    cases valid with
    | false => exact .inr (.inl ⟨rfl, rfl, step_of_not_valid hp rfl rfl⟩)
    | true =>
      by_cases hw : w = 0x2000#16
      · have hclr : step s = exec .clr (s.afterAccept rest) := step_of_cmd hp ((decode_eq_clr_iff w).mpr hw)
        exact .inl ⟨.inr ⟨rfl, hw⟩, _, hclr⟩
      · exact .inr (.inr ⟨rfl, rfl, hw, step_ignores_word hpe hp hw⟩)

/-- Settles O15: the three things a step can do while `PE = 1`; only the first returns `PE` to 0, and the other two touch
nothing but the host's side. -/
theorem protocolErrorIsSticky : Obligations.ProtocolErrorIsSticky := by
  intro s e rest hpe hp
  rcases step_cases_of_pe hpe hp with ⟨hleave, u, hstep⟩ | ⟨hr, hv, hstep⟩ | ⟨hr, hv, hw, hstep⟩
  · have hno : e.rst = false → e.cmdValid = true → e.cmd ≠ 0x2000#16 → resetAll u = s.afterAccept rest :=
      fun hr _ hw => absurd hleave (by simp [hr, hw])
    exact ⟨resetAll u, hstep, hno, by simp [hleave], by simp⟩
  · refine ⟨s.setPending rest, hstep, by simp [hv], by simp [hpe, hr, hv], fun _ => ?kept⟩
    case kept => exact ⟨rfl, ⟨rfl, rfl, rfl, rfl⟩, fun _ => rfl⟩
  · refine ⟨s.afterAccept rest, hstep, fun _ _ _ => rfl, ?left, fun _ => ?kept⟩
    case left =>
      have htaken : (s.afterAccept rest).pe = true := hpe
      simp [htaken, hr, hw]
    case kept => exact ⟨rfl, ⟨rfl, rfl, rfl, rfl⟩, fun _ => rfl⟩

end Sys2Proof.Machine
end

section
/-! PROOFS. The encoder and the decoder are inverse, and the map of the 65536 words (spec/30_encoding.md R71 to R79). -/

namespace Sys2Proof

/-! ### The two parts of a word -/

/-- R71: a word is its opcode and its low field side by side. -/
theorem opField_append_lowField (w : Word) : opField w ++ lowField w = w := by
  apply BitVec.eq_of_toNat_eq
  rw [BitVec.toNat_append, ← Nat.shiftLeft_add_eq_or_of_lt (lowField w).isLt, Nat.shiftLeft_eq, toNat_opField,
    toNat_lowField]
  omega

/-- R71, R73: `LDB`'s two fields are the low field. -/
theorem addrField_append_dataField (w : Word) : addrField w ++ dataField w = lowField w :=
  BitVec.extractLsb'_append_extractLsb'_eq_extractLsb' rfl

theorem toNat_addrField (w : Word) : (addrField w).toNat = w.toNat / 256 % 32 := by
  rw [addrField, BitVec.extractLsb'_toNat, Nat.shiftRight_eq_div_pow]

theorem toNat_dataField (w : Word) : (dataField w).toNat = w.toNat % 256 := by
  rw [dataField, BitVec.extractLsb'_toNat, Nat.shiftRight_zero]

/-- R72: the word of a command, as a number. -/
theorem toNat_encode (i : Instr) : (encode i).toNat = i.op.toNat * 8192 + i.low.toNat := by
  rw [encode, BitVec.toNat_append, ← Nat.shiftLeft_add_eq_or_of_lt i.low.isLt, Nat.shiftLeft_eq]

/-- R72, R73: the word of `LDB a, d` is `0x4000 + 256*a + d`. -/
theorem toNat_encode_ldb (a : Addr) (d : Byte) : (encode (.ldb a d)).toNat = 0x4000 + 256 * a.toNat + d.toNat := by
  have hlow : (Instr.low (.ldb a d)).toNat = a.toNat * 256 + d.toNat := by
    rw [Instr.low, BitVec.toNat_append, ← Nat.shiftLeft_add_eq_or_of_lt d.isLt, Nat.shiftLeft_eq]
  have hop : (Instr.op (.ldb a d)).toNat = 2 := rfl
  rw [toNat_encode, hlow, hop]
  omega

/-! ### Decoding an encoded command -/

/-- R73: opcode 2 is a load of the word's two fields. -/
theorem decode_of_load {w : Word} (h : opField w = 2#3) : decode w = .cmd (.ldb (addrField w) (dataField w)) :=
  if_pos h

/-- R73: the address field of `LDB a, d` is `a`. -/
theorem addrField_encode_ldb (a : Addr) (d : Byte) : addrField (encode (.ldb a d)) = a := by
  apply BitVec.eq_of_toNat_eq
  rw [toNat_addrField, toNat_encode_ldb]
  omega

/-- R73: the data field of `LDB a, d` is `d`. -/
theorem dataField_encode_ldb (a : Addr) (d : Byte) : dataField (encode (.ldb a d)) = d := by
  apply BitVec.eq_of_toNat_eq
  rw [toNat_dataField, toNat_encode_ldb]
  omega

/-- R75: every load is read back with both operands. -/
theorem decode_encode_ldb (a : Addr) (d : Byte) : decode (encode (.ldb a d)) = .cmd (.ldb a d) := by
  obtain ⟨hop, -⟩ := Laws.WordFields.ldb a d
  rw [decode_of_load hop, addrField_encode_ldb, dataField_encode_ldb]

/-- R75: a command without operands is read back from its opcode, since the low field of its word is zero. -/
theorem decode_encode_of_fields {i : Instr} (h : Laws.WordFields.Statement i) (hi : ∀ a d, i ≠ .ldb a d)
    (hop : formatN i.op = some i) : decode (encode i) = .cmd i := by
  obtain ⟨hword, hlow⟩ := h
  exact (decode_eq_cmd_iff_of_ne_ldb hi _).mpr ⟨by rw [hword, hop], hlow hi⟩

/-- Settles O1, command by command: a load by its two fields, the other six by the fields of their words. -/
theorem decodeOfEncode : Obligations.DecodeOfEncode := by
  intro i _
  cases i with
  | ldb a d => exact decode_encode_ldb a d
  | nop => exact decode_encode_of_fields Laws.WordFields.nop (by simp) rfl
  | clr => exact decode_encode_of_fields Laws.WordFields.clr (by simp) rfl
  | val => exact decode_encode_of_fields Laws.WordFields.val (by simp) rfl
  | dec => exact decode_encode_of_fields Laws.WordFields.dec (by simp) rfl
  | aqi => exact decode_encode_of_fields Laws.WordFields.aqi (by simp) rfl
  | run => exact decode_encode_of_fields Laws.WordFields.run (by simp) rfl

/-! ### Encoding a decoded command -/

/-- R72: a format-N command has the opcode it is read from, and a zero low field. -/
theorem op_and_low_of_formatN {op : BitVec 3} {i : Instr} (h : formatN op = some i) : i.op = op ∧ i.low = 0 := by
  have hmap : ∀ op : BitVec 3, ∀ i ∈ formatN op, i.op = op ∧ i.low = 0 := by decide
  exact hmap op i h

/-- R75: no bit of a legal word is ignored. -/
theorem encode_of_decode {w : Word} {i : Instr} (h : decode w = .cmd i) : encode i = w := by
  have hparts {j : Instr} (hop : j.op = opField w) (hlow : j.low = lowField w) : encode j = w := by
    rw [encode, hop, hlow, opField_append_lowField]
  rcases decode_cases w with ⟨hop, hd⟩ | ⟨-, hd⟩ | ⟨-, -, hd⟩ | ⟨j, -, hj, hlow, hd⟩
  · obtain rfl : Instr.ldb (addrField w) (dataField w) = i := by simpa [hd] using h
    exact hparts hop.symm (addrField_append_dataField w)
  · simp [hd] at h
  · simp [hd] at h
  · obtain rfl : j = i := by simpa [hd] using h
    obtain ⟨hopj, hlowj⟩ := op_and_low_of_formatN hj
    exact hparts hopj (hlowj.trans hlow.symm)

/-- Settles O2: the encoder puts together the opcode and the low field that the decoder took apart. -/
theorem encodeOfDecode : Obligations.EncodeOfDecode := fun _ _ => encode_of_decode

/-! ### The opcode map -/

/-- R76: opcode 7 is reserved, whatever the low field is. -/
theorem decode_of_reserved {w : Word} (h : opField w = 7#3) : decode w = .illegal .reservedOpcode := by
  simp [decode, h, formatN]

/-- R76, first clause. -/
theorem decode_eq_reservedOpcode_iff (w : Word) : decode w = .illegal .reservedOpcode ↔ opField w = 7#3 := by
  refine ⟨fun h => ?_, decode_of_reserved⟩
  rcases decode_cases w with ⟨-, hd⟩ | ⟨hop, -⟩ | ⟨-, -, hd⟩ | ⟨i, -, -, -, hd⟩
  · simp [hd] at h
  · exact hop
  · simp [hd] at h
  · simp [hd] at h

/-- R76, second clause. -/
theorem decode_eq_nonzeroField_iff (w : Word) :
    decode w = .illegal .nonzeroField ↔ opField w ≠ 2#3 ∧ opField w ≠ 7#3 ∧ lowField w ≠ 0#13 := by
  have hreserved := decode_eq_reservedOpcode_iff w
  rcases decode_cases w with ⟨hop, hd⟩ | ⟨hop, hd⟩ | ⟨hop, hlow, hd⟩ | ⟨i, -, -, hlow, hd⟩
  · simp [hd, hop]
  · simp [hd, hop]
  · have hop7 : opField w ≠ 7#3 := fun h7 => by simp [hreserved.mpr h7] at hd
    simp [hd, hop, hop7, hlow]
  · simp [hd, hlow]

/-- Settles O3: the two halves of a word as numbers choose the clause, and the six words without operands are computed. -/
theorem decodeFollowsOpcodeMap : Obligations.DecodeFollowsOpcodeMap := by
  intro w
  have hop (op : BitVec 3) : opField w = op ↔ w.toNat / 8192 = op.toNat := opField_eq_iff w op
  refine ⟨fun h => ?load, fun h => ?reserved, fun h2 h7 hlow => ?field, ?nop, ?clr, ?val, ?dec, ?aqi, ?run⟩
  case load => exact ⟨_, _, decode_of_load ((hop _).mpr h), toNat_addrField w, toNat_dataField w⟩
  case reserved => exact decode_of_reserved ((hop _).mpr h)
  case field =>
    exact (decode_eq_nonzeroField_iff w).mpr
      ⟨(hop _).not.mpr h2, (hop _).not.mpr h7, (lowField_eq_zero_iff w).not.mpr hlow⟩
  all_goals
    rintro rfl
    decide

/-- Settles O5: ten closed computations of the decoder. -/
theorem sampleWordsDecode : Obligations.SampleWordsDecode := by
  unfold Obligations.SampleWordsDecode
  decide

/-! ### How many words are legal -/

/-- A number below 2^16 is the number of its word. -/
theorem toNat_ofNat_word {n : Nat} (h : n < 65536) : (BitVec.ofNat 16 n : Word).toNat = n := by
  rw [BitVec.toNat_ofNat, Nat.mod_eq_of_lt h]

/-- A word has no command exactly if it is illegal. -/
theorem toOption_isSome_iff (d : Decoded) : d.toOption.isSome = true ↔ ¬ ∃ why, d = .illegal why := by
  cases d <;> simp [Decoded.toOption]

/-- R75: the numbers of the legal words: the 8192 loads, and the six words with another opcode and a zero low field. -/
def legalNumbers : Finset Nat := Finset.Ico 16384 24576 ∪ {0, 8192, 24576, 32768, 40960, 49152}

theorem mem_legalNumbers_iff (n : Nat) :
    n ∈ legalNumbers ↔ n = 0 ∨ n = 8192 ∨ n = 24576 ∨ n = 32768 ∨ n = 40960 ∨ n = 49152 ∨
      (16384 ≤ n ∧ n < 24576) := by
  simp [legalNumbers]

theorem card_legalNumbers : legalNumbers.card = 8198 := by
  rw [legalNumbers, Finset.card_union_of_disjoint, Nat.card_Ico]
  · rfl
  · simp

theorem filter_legal :
    (Finset.range 65536).filter (fun n => (decode (BitVec.ofNat 16 n)).toOption.isSome) = legalNumbers := by
  ext n
  rw [Finset.mem_filter, Finset.mem_range, toOption_isSome_iff, decode_illegal_iff_toNat, mem_legalNumbers_iff]
  constructor
  · rintro ⟨hn, hlegal⟩
    rw [toNat_ofNat_word hn] at hlegal
    omega
  · intro h
    have hn : n < 65536 := by omega
    rw [toNat_ofNat_word hn]
    omega

/-- R76: the words with the reserved opcode are the last eighth. -/
theorem filter_reservedOpcode :
    (Finset.range 65536).filter (fun n => decode (BitVec.ofNat 16 n) = .illegal .reservedOpcode) =
      Finset.Ico 57344 65536 := by
  ext n
  simp only [Finset.mem_filter, Finset.mem_range, Finset.mem_Ico, decode_eq_reservedOpcode_iff, opField_eq_iff]
  constructor
  · rintro ⟨hn, hop⟩
    rw [toNat_ofNat_word hn] at hop
    have hquot : n / 8192 = 7 := hop
    omega
  · rintro ⟨hlow, hn⟩
    rw [toNat_ofNat_word hn]
    have hquot : n / 8192 = 7 := by omega
    exact ⟨hn, hquot⟩

/-- R76: the words with a non-zero low field are all the others. -/
theorem filter_nonzeroField :
    (Finset.range 65536).filter (fun n => decode (BitVec.ofNat 16 n) = .illegal .nonzeroField) =
      Finset.range 65536 \ (legalNumbers ∪ Finset.Ico 57344 65536) := by
  rw [← filter_legal, ← filter_reservedOpcode, ← Finset.filter_or, ← Finset.filter_not]
  refine Finset.filter_congr fun n _ => ?_
  cases decode (BitVec.ofNat 16 n) with
  | cmd i => simp [Decoded.toOption]
  | illegal why => cases why <;> simp [Decoded.toOption]

/-- Settles O4: the legal words are counted as an interval and six points, the reserved ones as an interval, and the third
kind is what the two leave. -/
theorem legalAndIllegalWordCounts : Obligations.LegalAndIllegalWordCounts := by
  have hreserved : (Finset.Ico 57344 65536).card = 8192 := Nat.card_Ico _ _
  have hdisjoint : Disjoint legalNumbers (Finset.Ico 57344 65536) :=
    Finset.disjoint_left.mpr fun n hlegal hlast => by
      rw [mem_legalNumbers_iff] at hlegal
      rw [Finset.mem_Ico] at hlast
      omega
  have hwords : legalNumbers ∪ Finset.Ico 57344 65536 ⊆ Finset.range 65536 := fun n hn => by
    rw [Finset.mem_union, mem_legalNumbers_iff, Finset.mem_Ico] at hn
    rw [Finset.mem_range]
    omega
  refine ⟨filter_legal ▸ card_legalNumbers, filter_reservedOpcode ▸ hreserved, ?rest⟩
  case rest =>
    rw [filter_nonzeroField, Finset.card_sdiff_of_subset hwords, Finset.card_union_of_disjoint hdisjoint,
      card_legalNumbers, hreserved, Finset.card_range]

end Sys2Proof

namespace Sys2Proof.Machine

/-- R79: the ranges an assembled load is checked for. -/
theorem wellFormed_ldb_iff (a d : Nat) : (AsmCommand.ldb a d).wellFormed = true ↔ a ≤ 31 ∧ d ≤ 255 := by
  simp [AsmCommand.wellFormed, addrInRange, byteInRange, Nat.lt_succ_iff]

/-- Settles O6: the range check, and the word of the one load that the line expands to. -/
theorem assembledLoadIsItsWord : Obligations.AssembledLoadIsItsWord := by
  refine fun a d => ⟨wellFormed_ldb_iff a d, fun ha hd => ?word⟩
  case word =>
    have haddr : (BitVec.ofNat 5 a).toNat = a := Nat.mod_eq_of_lt (by omega)
    have hdata : (BitVec.ofNat 8 d).toNat = d := Nat.mod_eq_of_lt (by omega)
    simp only [AsmCommand.expand, asmLdb, List.map_cons, List.map_nil, toNat_encode_ldb, haddr, hdata]

end Sys2Proof.Machine
end

section
/-! PROOFS. The engine over a whole table: bands, rounding, the order of the indices, and the source's scenarios
(spec/43_aqi.md R134 to R139, spec/95_test_vectors.md section 1). -/

namespace Sys2Proof.Machine

/-! ### Bands and the range -/

/-- R132, R135: the entry of the default table that contains a whole concentration. -/
theorem builtTable_index {c i : Nat} {b : Band} (hb : builtTable[i]? = some b) (hcl : b.cl ≤ 10 * c)
    (hch : 10 * c ≤ b.ch) :
    i = if c ≤ 9 then 0 else if c ≤ 35 then 1 else if c ≤ 55 then 2 else if c ≤ 125 then 3 else if c ≤ 225 then 4 else 5 := by
  obtain ⟨hi, -⟩ := List.getElem?_eq_some_iff.mp hb
  have hlen : i < 6 := hi
  interval_cases i
  all_goals
    obtain rfl := Option.some.inj hb
    dsimp only at hcl hch
    split_ifs <;> omega

/-- R134: in the default table every concentration up to 325 is in range. -/
theorem le_vmax_builtTable {c : Nat} (hc : c ≤ 325) : 10 * c ≤ vmax builtTable :=
  (le_cmax_iff _ _).mp (cmax_builtTable ▸ hc)

/-- Settles O40: the band that contains the value, which entry of the default table that is, and its `CMAX`. -/
theorem bandContainsTheValue : Obligations.BandContainsTheValue := by
  refine ⟨fun t v ht hv => band_contains ht hv, fun c hc => ?tabulated,
    fun c hc => compute_of_cmax_lt (cmax_builtTable ▸ hc)⟩
  case tabulated =>
    obtain ⟨i, b, hband, hb, hcl, hch, -⟩ := band_contains builtTable_wf (le_vmax_builtTable hc)
    rw [hband, builtTable_index hb hcl hch]

/-- R139: what a result of `compute` says: the concentration is in range, and the result is that of its band. -/
theorem compute_result {t : List Band} (ht : tableWf t = true) {c x : Word} {k : BitVec 3}
    (h : compute t c = .result x k) :
    ∃ i b, t[i]? = some b ∧ b.wf = true ∧ b.cl ≤ 10 * c.toNat ∧ 10 * c.toNat ≤ b.ch ∧
      (∀ (j : Nat) (b' : Band), t[j]? = some b' → b'.cl ≤ 10 * c.toNat → j ≤ i) ∧
      x.toNat = interp b (10 * c.toNat) ∧ k = b.cat := by
  obtain ⟨hinRange, houtOfRange⟩ := computeAnswers t ht
  have hc : c.toNat ≤ cmax t := by
    by_contra hlt
    simp [houtOfRange c (not_le.mp hlt)] at h
  obtain ⟨i, b, hband, hb, x', hx', hindex⟩ := hinRange c hc
  obtain ⟨i', b', hband', hb', hcl, hch, hlast⟩ := band_contains ht ((le_cmax_iff t c.toNat).mp hc)
  obtain rfl : i = i' := by simpa [hband] using hband'
  obtain rfl : b = b' := by simpa [hb] using hb'
  obtain ⟨rfl, rfl⟩ : x' = x ∧ b.cat = k := by simpa [hx'] using h
  obtain ⟨-, -, -, hentries, -⟩ := (tableWf_iff t).mp ht
  exact ⟨i, b, hb, b.wf_iff.mpr (hentries b (List.mem_of_getElem? hb)), hcl, hch, hlast, hindex, rfl⟩

/-- R134: OutOfRange is exactly above `CMAX`. -/
theorem compute_eq_outOfRange_iff {t : List Band} (ht : tableWf t = true) (c : Word) :
    compute t c = .outOfRange ↔ cmax t < c.toNat := by
  refine ⟨fun h => ?_, compute_of_cmax_lt⟩
  by_contra hle
  obtain ⟨hinRange, -⟩ := computeAnswers t ht
  obtain ⟨-, b, -, -, x, hresult, -⟩ := hinRange c (not_lt.mp hle)
  simp [hresult] at h

/-- R134: above `CMAX` is where the tenths are above `VMAX`. -/
theorem vmax_lt_iff (t : List Band) (n : Nat) : vmax t < 10 * n ↔ cmax t < n := by
  rw [← not_le, ← not_le, le_cmax_iff]

/-- Settles O41: both forms of the limit, the first entry's bound 0, and the limits of the default table. -/
theorem outOfRangeIsAboveTheTable : Obligations.OutOfRangeIsAboveTheTable := by
  refine ⟨fun t c ht => ⟨?limit, vmax_lt_iff t c.toNat, fun b hb => ?below⟩, by decide, cmax_builtTable⟩
  case limit => rw [compute_eq_outOfRange_iff ht, vmax_lt_iff]
  case below =>
    obtain ⟨-, -, ⟨first, hfirst, hzero⟩, -, -⟩ := (tableWf_iff t).mp ht
    obtain rfl : first = b := by simpa [hfirst] using hb
    omega

/-! ### The interpolated index -/

/-- R136: the index is the lower bound of the range and a rounded quotient. -/
theorem interp_eq (b : Band) (v : Nat) :
    interp b v = b.il + (2 * ((b.ih - b.il) * (v - b.cl)) + (b.ch - b.cl)) / (2 * (b.ch - b.cl)) := rfl

theorem il_le_interp (b : Band) (v : Nat) : b.il ≤ interp b v := Nat.le_add_right _ _

/-- R138 (a): the lower end of the band gives the lower end of the range. -/
theorem interp_cl {b : Band} (hb : b.cl < b.ch) : interp b b.cl = b.il := by
  have hq : (b.ch - b.cl) / (2 * (b.ch - b.cl)) = 0 := Nat.div_eq_of_lt (by omega)
  rw [interp_eq, Nat.sub_self, Nat.mul_zero, Nat.mul_zero, Nat.zero_add, hq, Nat.add_zero]

/-- R138 (a): the upper end of the band gives the upper end of the range. -/
theorem interp_ch {b : Band} (hb : b.wf = true) : interp b b.ch = b.ih := by
  obtain ⟨hc, -, hi, -, -⟩ := b.wf_iff.mp hb
  have hnum : 2 * ((b.ih - b.il) * (b.ch - b.cl)) + (b.ch - b.cl) =
      (b.ch - b.cl) + 2 * (b.ch - b.cl) * (b.ih - b.il) := by ring
  have hq : (b.ch - b.cl) / (2 * (b.ch - b.cl)) = 0 := Nat.div_eq_of_lt (by omega)
  rw [interp_eq, hnum, Nat.add_mul_div_left _ _ (by omega), hq]
  omega

/-- Settles O43: the lower bound stands in the formula, the upper one is that of the rounded quotient, and the ends divide. -/
theorem interpolationStaysInItsBand : Obligations.InterpolationStaysInItsBand := by
  intro b v hb _ hch
  obtain ⟨hc, -, -, hih, -⟩ := b.wf_iff.mp hb
  have hle : interp b v ≤ b.ih := interp_le_ih hb hch
  exact ⟨il_le_interp b v, hle, hle.trans hih, interp_cl hc, interp_ch hb⟩

/-- R138 (b) within a band. -/
theorem interp_mono (b : Band) {v w : Nat} (h : v ≤ w) : interp b v ≤ interp b w := by
  have hnum : (b.ih - b.il) * (v - b.cl) ≤ (b.ih - b.il) * (w - b.cl) :=
    Nat.mul_le_mul_left _ (Nat.sub_le_sub_right h _)
  rw [interp_eq, interp_eq]
  exact Nat.add_le_add_left (Nat.div_le_div_right (by omega)) _

/-- R137: the formula of the source, rounded half up, has the quotient of the integer formula under the floor. -/
theorem interp_eq_floor {b : Band} {v : Nat} (hc : b.cl < b.ch) (hi : b.il ≤ b.ih) (hv : b.cl ≤ v) :
    ((interp b v : Nat) : ℤ) =
      ⌊((b.ih : ℚ) - b.il) / ((b.ch : ℚ) - b.cl) * ((v : ℚ) - b.cl) + b.il + 1 / 2⌋ := by
  have hden : ((b.ch : ℚ) - b.cl) ≠ 0 := by
    have : (b.cl : ℚ) < b.ch := Nat.cast_lt.mpr hc
    linarith
  have hquot : ((b.ih : ℚ) - b.il) / ((b.ch : ℚ) - b.cl) * ((v : ℚ) - b.cl) + b.il + 1 / 2 =
      ((2 * ((b.ih - b.il) * (v - b.cl)) + (b.ch - b.cl) : ℕ) : ℚ) / ((2 * (b.ch - b.cl) : ℕ) : ℚ) + (b.il : ℕ) := by
    push_cast [Nat.cast_sub hc.le, Nat.cast_sub hi, Nat.cast_sub hv]
    field_simp
    ring
  rw [hquot, Int.floor_add_natCast, Rat.floor_natCast_div_natCast, interp_eq]
  push_cast
  ring

/-- R137: the intermediate values of a well-formed band fit 32 bits. -/
theorem interp_values_lt {b : Band} {v : Nat} (hb : b.wf = true) (hv : v ≤ b.ch) :
    (b.ih - b.il) * (v - b.cl) < 2 ^ 25 ∧
    2 * ((b.ih - b.il) * (v - b.cl)) + (b.ch - b.cl) < 2 ^ 26 + 2 ^ 16 := by
  obtain ⟨-, hch, -, hih, -⟩ := b.wf_iff.mp hb
  have hnum : (b.ih - b.il) * (v - b.cl) ≤ 500 * 65535 := Nat.mul_le_mul (by omega) (by omega)
  omega

/-- R137, R132: in each band of the default table: no whole concentration is a tie, and the widths. -/
theorem builtTable_no_tie {c : Nat} {b : Band} (hb : b ∈ builtTable) (hcl : b.cl ≤ 10 * c) (hch : 10 * c ≤ b.ch) :
    2 * ((b.ih - b.il) * (10 * c - b.cl)) % (2 * (b.ch - b.cl)) ≠ b.ch - b.cl ∧
    10 * c - b.cl ≤ 999 ∧ b.ih - b.il ≤ 199 ∧ (b.ih - b.il) * (10 * c - b.cl) ≤ 198005 ∧
    2 * ((b.ih - b.il) * (10 * c - b.cl)) + (b.ch - b.cl) ≤ 397009 ∧ 2 * (b.ch - b.cl) ≤ 1998 := by
  simp only [builtTable, List.mem_cons, List.not_mem_nil, or_false] at hb
  rcases hb with rfl | rfl | rfl | rfl | rfl | rfl
  all_goals
    dsimp only at hcl hch ⊢
    omega

/-- Settles O42: the quotient under the floor, the bounds of its terms, and the default table band by band. -/
theorem interpolationIsExactHalfUp : Obligations.InterpolationIsExactHalfUp := by
  refine ⟨fun b v hb hcl hch => ?general, fun c i b hc hband hb => ?built⟩
  case general =>
    obtain ⟨hc, -, hi, -⟩ := b.wf_iff.mp hb
    exact ⟨interp_eq_floor hc hi hcl, interp_values_lt hb hch⟩
  case built =>
    obtain ⟨i', b', hband', hb', hcl, hch, -⟩ := band_contains builtTable_wf (le_vmax_builtTable hc)
    obtain rfl : i = i' := by simpa [hband] using hband'
    obtain rfl : b = b' := by simpa [hb] using hb'
    exact builtTable_no_tie (List.mem_of_getElem? hb) hcl hch

/-! ### The order of the indices -/

/-- R131 item 5 along the table: the index range of an earlier band lies below that of a later one. -/
theorem ih_le_il_of_lt {t : List Band} (ht : tableWf t = true) {i j : Nat} {b b' : Band} (hij : i < j)
    (hb : t[i]? = some b) (hb' : t[j]? = some b') : b.ih ≤ b'.il := by
  obtain ⟨-, -, -, hentries, hpairs⟩ := (tableWf_iff t).mp ht
  induction j, hij using Nat.le_induction generalizing b' with
  | base => exact (hpairs i b b' hb hb').2
  | succ j _ ih =>
    obtain ⟨hj, -⟩ := List.getElem?_eq_some_iff.mp hb'
    have hmid : t[j]? = some t[j] := List.getElem?_eq_getElem _
    obtain ⟨-, -, hrange, -⟩ := hentries t[j] (List.mem_of_getElem? hmid)
    obtain ⟨-, hnext⟩ := hpairs j t[j] b' hmid hb'
    exact ((ih hmid).trans hrange).trans hnext

/-- R138 (a), (d): the bounds of a result. -/
theorem compute_result_le {t : List Band} (ht : tableWf t = true) {c x : Word} {k : BitVec 3}
    (h : compute t c = .result x k) : x.toNat ≤ 500 ∧ k.toNat ≤ 5 := by
  obtain ⟨i, b, -, hb, -, hch, -, hx, rfl⟩ := compute_result ht h
  obtain ⟨-, -, -, hih, hcat⟩ := b.wf_iff.mp hb
  exact ⟨hx ▸ (interp_le_ih hb hch).trans hih, hcat⟩

/-- R138 (b): within a band the formula is monotone; across bands the index ranges lie one above the other. -/
theorem compute_mono {t : List Band} (ht : tableWf t = true) {c c' x x' : Word} {k k' : BitVec 3}
    (hle : c.toNat ≤ c'.toNat) (h : compute t c = .result x k) (h' : compute t c' = .result x' k') :
    x.toNat ≤ x'.toNat := by
  obtain ⟨i, b, hi, hb, hcl, hch, -, hx, -⟩ := compute_result ht h
  obtain ⟨j, b', hj, -, -, -, hlast, hx', -⟩ := compute_result ht h'
  rw [hx, hx']
  rcases (hlast i b hi (hcl.trans (Nat.mul_le_mul_left 10 hle))).eq_or_lt with rfl | hlt
  · obtain rfl : b = b' := by simpa [hi] using hj
    exact interp_mono b (Nat.mul_le_mul_left 10 hle)
  · exact ((interp_le_ih hb hch).trans (ih_le_il_of_lt ht hlt hi hj)).trans (il_le_interp b' _)

/-- Settles O45: the order of two results, the bounds of one, and the limit that stays passed. -/
theorem computeIsMonotone : Obligations.ComputeIsMonotone := by
  refine fun t ht => ⟨fun c c' x x' k k' hle h h' => compute_mono ht hle h h',
    fun c x k h => compute_result_le ht h, fun c c' hle h => ?above⟩
  case above =>
    rw [compute_eq_outOfRange_iff ht] at h ⊢
    exact h.trans_le hle

/-! ### The source's scenarios -/

/-- R38, R160: after a `RUN` on a frame that validates, a row of `compute` for the frame's concentration is shown. -/
theorem bodyRun_shows {s : State} {c x : Word} {k : BitVec 3} (hvalid : validate built s.frame = .valid)
    (hrow : compute builtTable c = .result x k) (hc : decodePm25 built s.frame = c) : (bodyRun built s).Shows c x k := by
  obtain ⟨u, hrun, -, hp, -, hpm25⟩ := bodyRun_eq_bodyAqi_of_valid hvalid
  obtain ⟨-, -, -, -, -, -, hkept, -⟩ := bodyAqi_keeps built u
  have hu : u.pm25 = c := hpm25.trans hc
  obtain ⟨hr, -, haqi, hcat⟩ := bodyAqi_writes_of_result (P := built) hp (hu ▸ hrow)
  simp [State.Shows, State.result, hrun, hr, hkept, hu, haqi, hcat]

/-- Settles O46: the five rows of `compute`, each shown by `RUN`. -/
theorem sourceScenarios : Obligations.SourceScenarios := by
  intro s t hpe hvalid hexec
  rw [exec_run_of_not_pe hpe] at hexec
  cases hexec
  exact ⟨bodyRun_shows hvalid (by decide), bodyRun_shows hvalid (by decide), bodyRun_shows hvalid (by decide),
    bodyRun_shows hvalid (by decide), bodyRun_shows hvalid (by decide)⟩

end Sys2Proof.Machine
end

section
/-! PROOFS. The step: its cases, that it answers, what it counts (spec/40_frame_control.md R93, spec/10_state.md R31). -/

namespace Sys2Proof.Machine

/-! ### The step and the built machine -/

/-- R5: at the built parameters the meaning of a command is `exec`. -/
theorem execAt_built (i : Instr) (s : State) : execAt built i s = exec i s := by
  rw [execAt, if_pos built_wf, exec_eq_effectAt]

theorem stepAt_of_wf {P : Params} (hP : P.wf = true) (s : State) : stepAt P s = stepWith (execAt P) s :=
  if_pos hP

/-- R5: at the built parameters the step is `step`. -/
theorem stepAt_built (s : State) : stepAt built s = step s := by
  have hexec : execAt built = exec := funext fun i => funext fun s => execAt_built i s
  rw [stepAt_of_wf built_wf, hexec, step]

/-- Settles O12: the same meaning of the commands gives the same step. -/
theorem stepIsTheBuiltMachine : Obligations.StepIsTheBuiltMachine :=
  ⟨built_wf, execAt_built, stepAt_built⟩

/-- Settles O11: a step is one of four next states, and `step` is the step at the built parameters. -/
theorem everyStepAnswers : Obligations.EveryStepAnswers := by
  have hstepAt {P : Params} (hP : P.wf = true) (s : State) : ∃ t, stepAt P s = .next t := by
    rcases stepAt_cases hP s with ⟨_, h⟩ | ⟨_, h⟩ | ⟨_, _, h⟩ | ⟨_, h⟩
    all_goals exact ⟨_, h⟩
  refine ⟨fun s => ?step, fun i s => ⟨_, exec_eq_effectAt i s⟩, fun P s hP => hstepAt hP s, fun P s hP => ?refused⟩
  case step => exact stepAt_built s ▸ hstepAt built_wf s
  case refused => simp [stepAt, hP]

/-! ### One sample -/

/-- Settles O7: every command is well-formed, and a presented legal word runs its command. -/
theorem stepRunsTheAcceptedCommand : Obligations.StepRunsTheAcceptedCommand := by
  refine fun s w rest i h hw => ⟨?wellFormed, step_of_cmd h hw⟩
  case wellFormed => cases i <;> rfl

/-- R21: with nothing driven at all the step answers the same state (assumption 2). -/
theorem step_of_nil {s : State} (h : s.pending = []) : step s = .next s := by
  simp [step, stepWith, fetch, h]

/-- Settles O8: the two idle steps. -/
theorem idleStepChangesNothing : Obligations.IdleStepChangesNothing :=
  fun _ => ⟨step_of_nil, fun _ _ hp hr hv => step_of_not_valid hp hr hv⟩

/-- Settles O10: the reset step, whose state is the reset state but for the host's side. -/
theorem resetSampleStep : Obligations.ResetSampleStep := fun _ _ _ hp hr => step_of_rst hp hr

/-- Everything one step can be: nothing driven, a reset, no word, a legal word, an illegal word. -/
theorem step_cases (s : State) :
    (s.pending = [] ∧ step s = .next s) ∨
    (∃ e rest, s.pending = e :: rest ∧ e.rst = true ∧ step s = .next (resetAll (s.setPending rest))) ∨
    (∃ e rest, s.pending = e :: rest ∧ e.rst = false ∧ e.cmdValid = false ∧ step s = .next (s.setPending rest)) ∨
    (∃ w rest i, s.Presents w rest ∧ decode w = .cmd i ∧ step s = .next (effectAt built i (s.afterAccept rest))) ∨
    (∃ w rest why, s.Presents w rest ∧ decode w = .illegal why ∧
      step s = .next (unlessProtocolError bodyIllegal (s.afterAccept rest))) := by
  cases hp : s.pending with
  | nil => exact .inl ⟨rfl, step_of_nil hp⟩
  | cons e rest =>
    refine .inr ?_
    obtain ⟨rst, valid, w⟩ := e
    cases rst with
    | true => exact .inl ⟨_, rest, rfl, rfl, step_of_rst hp rfl⟩
    | false =>
      cases valid with
      | false => exact .inr (.inl ⟨_, rest, rfl, rfl, rfl, step_of_not_valid hp rfl rfl⟩)
      | true =>
        cases hd : decode w with
        | cmd i =>
          have hstep : step s = .next (effectAt built i (s.afterAccept rest)) :=
            (step_of_cmd hp hd).trans (exec_eq_effectAt i _)
          exact .inr (.inr (.inl ⟨w, rest, i, hp, hd, hstep⟩))
        | illegal why => exact .inr (.inr (.inr ⟨w, rest, why, hp, hd, step_of_illegal hp hd⟩))

/-! ### The host's index -/

/-- R31: an illegal word leaves the host's side, with and without protocol error. -/
theorem illegal_keeps_host (s : State) : SameHost s (unlessProtocolError bodyIllegal s) := by
  cases hpe : s.pe with
  | true =>
    rw [unlessProtocolError_of_pe hpe]
    exact ⟨rfl, rfl⟩
  | false => simp [unlessProtocolError_of_not_pe hpe, bodyIllegal, SameHost]

/-- R31: the sample a step takes, and whether its word is counted. -/
theorem step_counts {s t : State} (h : step s = .next t) :
    t.accepted = s.accepted + (match s.pending with
      | [] => 0
      | e :: _ => if e.rst = false ∧ e.cmdValid = true then 1 else 0) ∧ t.pending = s.pending.tail := by
  rcases step_cases s with ⟨hp, hs⟩ | ⟨e, rest, hp, hr, hs⟩ | ⟨e, rest, hp, hr, hv, hs⟩ | ⟨w, rest, i, hp, -, hs⟩ |
    ⟨w, rest, why, hp, -, hs⟩
  all_goals
    obtain rfl := Host.Outcome.next.inj (hs.symm.trans h)
  · simp [hp]
  · simp [hp, hr]
  · simp [hp, hr, hv]
  · obtain ⟨hpending, haccepted⟩ := effectAt_keeps_host built i (s.afterAccept rest)
    rw [hpending, haccepted, show s.pending = _ from hp]
    exact ⟨rfl, rfl⟩
  · obtain ⟨hpending, haccepted⟩ := illegal_keeps_host (s.afterAccept rest)
    rw [hpending, haccepted, show s.pending = _ from hp]
    exact ⟨rfl, rfl⟩

end Sys2Proof.Machine
end

section
/-! PROOFS. What the commands read and write beside the registers (spec/10_state.md R31, spec/20_memory.md R55). -/

namespace Sys2Proof.Machine

/-! ### What a body does not read -/

/-- A body under the protocol-error guard commutes with a change of the state that it commutes with unguarded, where the
change leaves `PE`. -/
theorem unlessProtocolError_comm {body g : State → State} {s : State} (hpe : (g s).pe = s.pe)
    (h : body (g s) = g (body s)) : unlessProtocolError body (g s) = g (unlessProtocolError body s) := by
  cases hs : s.pe with
  | true => rw [unlessProtocolError_of_pe hs, unlessProtocolError_of_pe (hpe.trans hs)]
  | false => rw [unlessProtocolError_of_not_pe hs, unlessProtocolError_of_not_pe (hpe.trans hs), h]

/-- R108: `VAL` where the checksum differs. -/
theorem bodyVal_of_mismatch {P : Params} {s : State} (hh : hdrOk P s.frame = true)
    (hs : sum16 s.frame ≠ declared s.frame) :
    bodyVal P s = ((invalidateFrom .val s).setSum (sum16 s.frame)).setErr .checksumMismatch := by
  simp [bodyVal, hh, hs]

/-- R108: `VAL` where the frame validates. -/
theorem bodyVal_of_match {P : Params} {s : State} (hh : hdrOk P s.frame = true)
    (hs : sum16 s.frame = declared s.frame) :
    bodyVal P s = (((invalidateFrom .val s).setSum (sum16 s.frame)).setV true).setErr .none := by
  simp [bodyVal, hh, hs]

/-- R140: `AQI` above the table. -/
theorem bodyAqi_of_outOfRange {P : Params} {s : State} (hp : s.p = true)
    (hc : compute P.bpTable s.pm25 = .outOfRange) : bodyAqi P s = (invalidateFrom .aqi s).setErr .outOfRange := by
  simp [bodyAqi, hp, hc]

/-- R140: `AQI` with an index. -/
theorem bodyAqi_of_result {P : Params} {s : State} {x : Word} {k : BitVec 3} (hp : s.p = true)
    (hc : compute P.bpTable s.pm25 = .result x k) :
    bodyAqi P s = ((((invalidateFrom .aqi s).setAqi x).setCat k).setR true).setErr .none := by
  simp [bodyAqi, hp, hc]

theorem State.setFrame_eq_self {s : State} {F : Memory} (h : s.frame = F) : s.setFrame F = s := by
  subst h
  rfl

theorem State.setAccepted_eq_self {s : State} {n : Nat} (h : s.accepted = n) : s.setAccepted n = s := by
  subst h
  rfl

/-- R55, R31: `DEC` reads neither the index nor more of the frame than the concentration. -/
theorem bodyDec_setFrame_setAccepted {P : Params} {s : State} {F : Memory} (h : decodePm25 P F = decodePm25 P s.frame)
    (n : Nat) : bodyDec P ((s.setFrame F).setAccepted n) = ((bodyDec P s).setFrame F).setAccepted n := by
  cases hv : s.v with
  | false =>
    rw [bodyDec_of_not_v hv, bodyDec_of_not_v (s := (s.setFrame F).setAccepted n) hv]
    rfl
  | true =>
    rw [bodyDec_of_v hv, bodyDec_of_v (s := (s.setFrame F).setAccepted n) hv, ← h]
    rfl

/-- R55, R31: `AQI` reads neither the index nor the frame. -/
theorem bodyAqi_setFrame_setAccepted (P : Params) (s : State) (F : Memory) (n : Nat) :
    bodyAqi P ((s.setFrame F).setAccepted n) = ((bodyAqi P s).setFrame F).setAccepted n := by
  cases hp : s.p with
  | false =>
    rw [bodyAqi_of_not_p hp, bodyAqi_of_not_p (s := (s.setFrame F).setAccepted n) hp]
    rfl
  | true =>
    cases hc : compute P.bpTable s.pm25 with
    | outOfRange =>
      rw [bodyAqi_of_outOfRange hp hc, bodyAqi_of_outOfRange (s := (s.setFrame F).setAccepted n) hp hc]
      rfl
    | result x k =>
      rw [bodyAqi_of_result hp hc, bodyAqi_of_result (s := (s.setFrame F).setAccepted n) hp hc]
      rfl

/-! ### The index is not read -/

theorem bodyVal_setAccepted (P : Params) (s : State) (n : Nat) :
    bodyVal P (s.setAccepted n) = (bodyVal P s).setAccepted n := by
  cases hh : hdrOk P s.frame with
  | false =>
    rw [bodyVal_of_bad_header hh, bodyVal_of_bad_header (s := s.setAccepted n) hh]
    rfl
  | true =>
    by_cases hs : sum16 s.frame = declared s.frame
    · rw [bodyVal_of_match hh hs, bodyVal_of_match (s := s.setAccepted n) hh hs]
      rfl
    · rw [bodyVal_of_mismatch hh hs, bodyVal_of_mismatch (s := s.setAccepted n) hh hs]
      rfl

theorem bodyDec_setAccepted (P : Params) (s : State) (n : Nat) :
    bodyDec P (s.setAccepted n) = (bodyDec P s).setAccepted n := by
  obtain ⟨hframe, -⟩ := bodyDec_keeps P s
  have h := bodyDec_setFrame_setAccepted (P := P) (F := s.frame) rfl n
  rwa [State.setFrame_eq_self rfl, State.setFrame_eq_self hframe] at h

theorem bodyAqi_setAccepted (P : Params) (s : State) (n : Nat) :
    bodyAqi P (s.setAccepted n) = (bodyAqi P s).setAccepted n := by
  obtain ⟨hframe, -⟩ := bodyAqi_keeps P s
  have h := bodyAqi_setFrame_setAccepted P s s.frame n
  rwa [State.setFrame_eq_self rfl, State.setFrame_eq_self hframe] at h

theorem bodyRun_setAccepted (P : Params) (s : State) (n : Nat) :
    bodyRun P (s.setAccepted n) = (bodyRun P s).setAccepted n := by
  have hval := bodyVal_setAccepted P s n
  cases hv : (bodyVal P s).v with
  | false => rw [bodyRun_of_not_v hv, bodyRun_of_not_v (by rw [hval]; exact hv), hval]
  | true =>
    rw [bodyRun_of_v hv, bodyRun_of_v (by rw [hval]; exact hv), hval, bodyDec_setAccepted, bodyAqi_setAccepted]

/-- R31: no command reads the index, or sets it otherwise than it was. -/
theorem effectAt_setAccepted (P : Params) (i : Instr) (s : State) (n : Nat) :
    effectAt P i (s.setAccepted n) = (effectAt P i s).setAccepted n := by
  cases i with
  | clr => rfl
  | nop => exact unlessProtocolError_comm (g := (State.setAccepted · n)) rfl rfl
  | ldb a d => exact unlessProtocolError_comm (g := (State.setAccepted · n)) rfl rfl
  | val => exact unlessProtocolError_comm (g := (State.setAccepted · n)) rfl (bodyVal_setAccepted P s n)
  | dec => exact unlessProtocolError_comm (g := (State.setAccepted · n)) rfl (bodyDec_setAccepted P s n)
  | aqi => exact unlessProtocolError_comm (g := (State.setAccepted · n)) rfl (bodyAqi_setAccepted P s n)
  | run => exact unlessProtocolError_comm (g := (State.setAccepted · n)) rfl (bodyRun_setAccepted P s n)

/-- Settles O16: the index along a step, and that every command keeps it and commutes with setting it. -/
theorem acceptedWordsAreCounted : Obligations.AcceptedWordsAreCounted := by
  refine ⟨rfl, fun s t h => step_counts h, fun i s t n h => ?command⟩
  case command =>
    obtain rfl := Host.Outcome.next.inj ((exec_eq_effectAt i s).symm.trans h)
    obtain ⟨-, haccepted⟩ := effectAt_keeps_host built i s
    exact ⟨haccepted, (exec_eq_effectAt i _).trans (congrArg Host.Outcome.next (effectAt_setAccepted built i s n))⟩

/-! ### Who writes the frame -/

/-- R93: without protocol error the effect of a command other than `CLR` and `LDB` leaves the frame. -/
theorem effectAt_keeps_frame {P : Params} {i : Instr} (s : State) (hclr : i ≠ .clr) (hldb : ∀ a d, i ≠ .ldb a d) :
    (effectAt P i s).frame = s.frame := by
  obtain ⟨hval, -⟩ := bodyVal_keeps P s
  obtain ⟨hdec, -⟩ := bodyDec_keeps P s
  obtain ⟨haqi, -⟩ := bodyAqi_keeps P s
  obtain ⟨hrun, -⟩ := bodyRun_keeps P s
  cases hpe : s.pe with
  | true => rw [effectAt_of_pe hpe hclr]
  | false =>
    cases i with
    | clr => exact absurd rfl hclr
    | ldb a d => exact absurd rfl (hldb a d)
    | nop => exact congrArg State.frame (unlessProtocolError_of_not_pe hpe)
    | val => exact (congrArg State.frame (unlessProtocolError_of_not_pe hpe)).trans hval
    | dec => exact (congrArg State.frame (unlessProtocolError_of_not_pe hpe)).trans hdec
    | aqi => exact (congrArg State.frame (unlessProtocolError_of_not_pe hpe)).trans haqi
    | run => exact (congrArg State.frame (unlessProtocolError_of_not_pe hpe)).trans hrun

/-- R22, R55: a command leaves the frame, or is `CLR`, or is a load without protocol error. -/
theorem effectAt_frame (P : Params) (i : Instr) (s : State) :
    (effectAt P i s).frame = s.frame ∨ (i = .clr ∧ (effectAt P i s).frame = []) ∨
    ∃ a d, i = .ldb a d ∧ s.pe = false ∧ (effectAt P i s).frame = s.frame.write a d := by
  cases i with
  | clr => exact .inr (.inl ⟨rfl, rfl⟩)
  | ldb a d =>
    cases hpe : s.pe with
    | true => exact .inl (congrArg State.frame (unlessProtocolError_of_pe hpe))
    | false =>
      have hbody : effectAt P (.ldb a d) s = bodyLdb a d s := unlessProtocolError_of_not_pe hpe
      exact .inr (.inr ⟨a, d, rfl, rfl, by rw [hbody, bodyLdb_frame]⟩)
  | _ => exact .inl (effectAt_keeps_frame s (by simp) (by simp))

/-- R76: an illegal word leaves the frame. -/
theorem illegal_keeps_frame (s : State) : (unlessProtocolError bodyIllegal s).frame = s.frame := by
  cases hpe : s.pe with
  | true => rw [unlessProtocolError_of_pe hpe]
  | false => simp [unlessProtocolError_of_not_pe hpe, bodyIllegal]

/-- Settles O28: in the two cases of the step that write the frame, the word of the command is that of its operands. -/
theorem onlyLdbClrAndResetWriteTheFrame : Obligations.OnlyLdbClrAndResetWriteTheFrame := by
  intro s t a h hne
  rcases step_cases s with ⟨hp, hs⟩ | ⟨e, rest, hp, hr, hs⟩ | ⟨e, rest, hp, hr, hv, hs⟩ | ⟨w, rest, i, hp, hd, hs⟩ |
    ⟨w, rest, why, hp, -, hs⟩
  all_goals
    obtain rfl := Host.Outcome.next.inj (hs.symm.trans h)
  · exact absurd rfl hne
  · exact ⟨e, rest, hp, .inl ⟨hr, by simp⟩⟩
  · exact absurd rfl hne
  · refine ⟨_, rest, hp, .inr ?_⟩
    rcases effectAt_frame built i (s.afterAccept rest) with hf | ⟨rfl, hf⟩ | ⟨b, d, rfl, hpe, hf⟩
    · exact absurd (by rw [hf]) hne
    · exact .inl ⟨rfl, (decode_eq_clr_iff w).mp hd, by rw [hf, Memory.read_nil]⟩
    · have hread := Memory.read_write s.frame b a d
      have hab : a = b := by
        by_contra hab
        exact hne (by rw [hf, hread, if_neg hab])
      subst hab
      refine .inr ⟨rfl, hpe, ?_⟩
      rw [hf, Memory.read_write_same]
      exact (encode_of_decode hd).symm.trans (encode_ldb a d)
  · exact absurd (by rw [illegal_keeps_frame]) hne

/-! ### What the commands read -/

theorem bodyAqi_setFrame (P : Params) (s : State) (F : Memory) :
    bodyAqi P (s.setFrame F) = (bodyAqi P s).setFrame F := by
  obtain ⟨-, -, haccepted, -⟩ := bodyAqi_keeps P s
  have h := bodyAqi_setFrame_setAccepted P s F s.accepted
  exact h.trans (State.setAccepted_eq_self (s := (bodyAqi P s).setFrame F) haccepted)

theorem bodyDec_setFrame {P : Params} {s : State} {F : Memory} (hF : decodePm25 P F = decodePm25 P s.frame) :
    bodyDec P (s.setFrame F) = (bodyDec P s).setFrame F := by
  obtain ⟨-, -, haccepted, -⟩ := bodyDec_keeps P s
  have h := bodyDec_setFrame_setAccepted hF s.accepted
  exact h.trans (State.setAccepted_eq_self (s := (bodyDec P s).setFrame F) haccepted)

/-- Settles O31: each command commutes with replacing the frame, `DEC` where its two bytes agree. -/
theorem commandsReadOnlyTheirBytes : Obligations.CommandsReadOnlyTheirBytes := by
  intro s F
  refine ⟨⟨s, exec_nop s, exec_nop _⟩, ⟨_, rfl, ?aqi⟩, fun hC hD => ⟨_, rfl, ?dec⟩⟩
  case aqi =>
    exact congrArg Host.Outcome.next
      (unlessProtocolError_comm (g := (State.setFrame · F)) rfl (bodyAqi_setFrame built s F))
  case dec =>
    have hfield : decodePm25 built F = decodePm25 built s.frame := congrArg₂ (· ++ ·) hC hD
    exact congrArg Host.Outcome.next
      (unlessProtocolError_comm (g := (State.setFrame · F)) rfl (bodyDec_setFrame hfield))

end Sys2Proof.Machine
end

section
/-! PROOFS. The state invariants (spec/10_state.md R34): at reset, under every body, along every run; and what they say of a
result that is shown (R38) and of the ports (R36). -/

namespace Sys2Proof.Machine

/-! ### The shapes of a state that meets the invariants -/

/-- R34 items 9 and 10 and the canonical form: the part of the invariants that speaks of no stage. -/
def Grounded (s : State) : Prop :=
  s.frame.wf = true ∧ (s.pe = false ↔ s.pec = 0) ∧ getField s.st 7 1 = 0 ∧ getField s.st 10 6 = 0

theorem StateInv.grounded {P : Params} {s : State} (h : StateInv P s) : Grounded s :=
  ⟨h.frame_wf, h.pe_iff_pec, h.reserved⟩

/-- What leaves the frame, `PE`, `PEC` and the reserved bits leaves a state grounded. -/
theorem Grounded.of_eq {s t : State} (h : Grounded s) (hframe : t.frame = s.frame) (hpe : t.pe = s.pe)
    (hpec : t.pec = s.pec) (h7 : getField t.st 7 1 = getField s.st 7 1)
    (h10 : getField t.st 10 6 = getField s.st 10 6) : Grounded t := by
  rwa [Grounded, hframe, hpe, hpec, h7, h10]

/-- What `VAL` (R108) leaves of a frame that passed both checks, and every later stage keeps. -/
def Validated (P : Params) (s : State) : Prop :=
  s.v = true ∧ hdrOk P s.frame = true ∧ s.sum = sum16 s.frame ∧ s.sum = declared s.frame

/-- What `DEC` (R122) leaves of it, and `AQI` keeps. -/
def Extracted (P : Params) (s : State) : Prop :=
  Validated P s ∧ s.p = true ∧ s.pm25 = decodePm25 P s.frame

/-- The invalid values of stage `aqi` (R33). -/
def NoResult (s : State) : Prop :=
  s.r = false ∧ s.aqi = Config.aqiInvalid ∧ s.cat = Config.catInvalid

/-- The invalid values of stage `dec` and of the later one (R33). -/
def NoConcentration (s : State) : Prop :=
  s.p = false ∧ s.pm25 = 0 ∧ NoResult s

/-- The data outcome and the sum that go with a frame that is not validated (R28, R34 items 5 to 7). -/
def OutcomeWithoutV (P : Params) (s : State) : Prop :=
  (s.err = DataOutcome.none.code ∧ s.sum = 0) ∨
  (s.err = DataOutcome.invalidHeader.code ∧ s.sum = 0 ∧ hdrOk P s.frame = false) ∨
  (s.err = DataOutcome.checksumMismatch.code ∧ hdrOk P s.frame = true ∧ s.sum = sum16 s.frame ∧ s.sum ≠ declared s.frame)

/-- The clauses of R34 about `ERR` and `SUM` that a frame without validation can meet. -/
theorem OutcomeWithoutV.clauses {P : Params} {s : State} (h : OutcomeWithoutV P s) :
    (s.err ≠ DataOutcome.checksumMismatch.code → s.sum = 0) ∧
    (s.err = DataOutcome.invalidHeader.code → s.sum = 0 ∧ hdrOk P s.frame = false) ∧
    (s.err = DataOutcome.checksumMismatch.code →
      hdrOk P s.frame = true ∧ s.sum = sum16 s.frame ∧ s.sum ≠ declared s.frame) ∧
    s.err ≠ DataOutcome.outOfRange.code ∧ s.err ≤ 3 := by
  rcases h with ⟨he, hs⟩ | ⟨he, hs, hh⟩ | ⟨he, hchecks⟩
  · simp [he, hs, DataOutcome.code]
  · simp [he, hs, hh, DataOutcome.code]
  · exact ⟨fun h => absurd he h, by simp [he, DataOutcome.code], fun _ => hchecks, by simp [he, DataOutcome.code],
      by simp [he, DataOutcome.code]⟩

/-- No frame validated: after a reset, a load, or a `VAL` that failed (R35, R92, R108). -/
theorem StateInv.of_not_v {P : Params} {s : State} (hg : Grounded s) (hv : s.v = false) (hn : NoConcentration s)
    (ho : OutcomeWithoutV P s) : StateInv P s := by
  obtain ⟨hwf, hpe, hreserved⟩ := hg
  obtain ⟨hp, hpm25, hr, hinvalid⟩ := hn
  obtain ⟨hsum, hheader, hmismatch, hinRange, hnamed⟩ := ho.clauses
  exact
    { frame_wf := hwf
      r_needs_p := by simp [hr]
      p_needs_v := by simp [hp]
      validated := by simp [hv]
      decoded := by simp [hp]
      computed := by simp [hr]
      no_result := fun _ => hinvalid
      no_concentration := fun _ => hpm25
      no_checksum := fun _ => hsum
      invalid_header := fun h => ⟨hv, hheader h⟩
      checksum_mismatch := fun h => ⟨hv, hmismatch h⟩
      out_of_range := fun h => absurd h hinRange
      pe_iff_pec := hpe
      reserved := hreserved
      err_named := hnamed }

/-- A validated frame and no concentration: after a `VAL` that succeeded (R108). -/
theorem StateInv.of_validated {P : Params} {s : State} (hg : Grounded s) (hval : Validated P s) (hn : NoConcentration s)
    (herr : s.err = DataOutcome.none.code) : StateInv P s := by
  obtain ⟨hwf, hpe, hreserved⟩ := hg
  obtain ⟨hv, hchecks⟩ := hval
  obtain ⟨hp, hpm25, hr, hinvalid⟩ := hn
  exact
    { frame_wf := hwf
      r_needs_p := by simp [hr]
      p_needs_v := fun _ => hv
      validated := fun _ => hchecks
      decoded := by simp [hp]
      computed := by simp [hr]
      no_result := fun _ => hinvalid
      no_concentration := fun _ => hpm25
      no_checksum := by simp [hv]
      invalid_header := by simp [herr, DataOutcome.code]
      checksum_mismatch := by simp [herr, DataOutcome.code]
      out_of_range := by simp [herr, DataOutcome.code]
      pe_iff_pec := hpe
      reserved := hreserved
      err_named := by simp [herr, DataOutcome.code] }

/-- A concentration and no result: after `DEC` (R122), or after an `AQI` that was out of range (R140). -/
theorem StateInv.of_extracted {P : Params} {s : State} (hg : Grounded s) (hex : Extracted P s) (hn : NoResult s)
    (ho : s.err = DataOutcome.none.code ∨
      (s.err = DataOutcome.outOfRange.code ∧ compute P.bpTable s.pm25 = .outOfRange)) : StateInv P s := by
  obtain ⟨hwf, hpe, hreserved⟩ := hg
  obtain ⟨⟨hv, hchecks⟩, hp, hpm25⟩ := hex
  obtain ⟨hr, hinvalid⟩ := hn
  have hcodes : s.err = DataOutcome.none.code ∨ s.err = DataOutcome.outOfRange.code := ho.imp_right And.left
  exact
    { frame_wf := hwf
      r_needs_p := fun _ => hp
      p_needs_v := fun _ => hv
      validated := fun _ => hchecks
      decoded := fun _ => hpm25
      computed := by simp [hr]
      no_result := fun _ => hinvalid
      no_concentration := by simp [hp]
      no_checksum := by simp [hv]
      invalid_header := by rcases hcodes with he | he <;> simp [he, DataOutcome.code]
      checksum_mismatch := by rcases hcodes with he | he <;> simp [he, DataOutcome.code]
      out_of_range := by
        rcases ho with he | ⟨-, hc⟩
        · simp [he, DataOutcome.code]
        · exact fun _ => ⟨hp, hr, hc⟩
      pe_iff_pec := hpe
      reserved := hreserved
      err_named := by rcases hcodes with he | he <;> simp [he, DataOutcome.code] }

/-- A result: after an `AQI` in range (R140). -/
theorem StateInv.of_result {P : Params} {s : State} (hg : Grounded s) (hex : Extracted P s) (hr : s.r = true)
    (hc : compute P.bpTable s.pm25 = .result s.aqi s.cat) (ht : tableWf P.bpTable = true)
    (herr : s.err = DataOutcome.none.code) : StateInv P s := by
  obtain ⟨hwf, hpe, hreserved⟩ := hg
  obtain ⟨⟨hv, hchecks⟩, hp, hpm25⟩ := hex
  obtain ⟨hindex, hcat⟩ := compute_result_le ht hc
  exact
    { frame_wf := hwf
      r_needs_p := fun _ => hp
      p_needs_v := fun _ => hv
      validated := fun _ => hchecks
      decoded := fun _ => hpm25
      computed := fun _ => ⟨hc, hindex, hcat, herr⟩
      no_result := by simp [hr]
      no_concentration := by simp [hp]
      no_checksum := by simp [hv]
      invalid_header := by simp [herr, DataOutcome.code]
      checksum_mismatch := by simp [herr, DataOutcome.code]
      out_of_range := by simp [herr, DataOutcome.code]
      pe_iff_pec := hpe
      reserved := hreserved
      err_named := by simp [herr, DataOutcome.code] }

/-! ### The commands -/

/-- R34: the invariants do not speak of the host's side. -/
theorem StateInv.setHost {P : Params} {s : State} (h : StateInv P s) (l : List PortSample) (n : Nat) :
    StateInv P ((s.setPending l).setAccepted n) := by
  cases h
  constructor <;> assumption

/-- R34, R35: the reset state. -/
theorem stateInv_resetAll (P : Params) (s : State) : StateInv P (resetAll s) := by
  apply StateInv.of_not_v
  case hg => simp [Grounded]
  case hv => simp
  case hn => simp [NoConcentration, NoResult]
  case ho => exact .inl (by simp [DataOutcome.code])

/-- R34, R175: raising a protocol error sets `PE` and a cause that is not zero, and leaves the rest. -/
theorem StateInv.after_raise {P : Params} {s : State} (h : StateInv P s) (e : ProtocolError) :
    StateInv P (raiseProtocolError e s) := by
  have hcode : e.code ≠ 0 := by cases e <;> decide
  cases h
  constructor
  case pe_iff_pec => simpa using hcode
  all_goals simpa

/-- R34, R92: `LDB`. -/
theorem StateInv.after_ldb {P : Params} {s : State} (h : StateInv P s) (a : Addr) (d : Byte) :
    StateInv P (bodyLdb a d s) := by
  obtain ⟨hwf, hrest⟩ := h.grounded
  obtain ⟨hv, hp, hr, herr, hsum, hpm25, haqi, hcat⟩ := bodyLdb_invalid a d s
  have hg : Grounded (bodyLdb a d s) := by
    simpa [Grounded, bodyLdb] using And.intro (Memory.write_wf a d hwf) hrest
  exact .of_not_v hg hv ⟨hp, hpm25, hr, haqi, hcat⟩ (.inl ⟨herr, hsum⟩)

/-- R34, R108: `VAL`, with each of its three outcomes. -/
theorem StateInv.after_val {P : Params} {s : State} (h : StateInv P s) : StateInv P (bodyVal P s) := by
  obtain ⟨hframe, -, -, hpe, hpec, h7, h10⟩ := bodyVal_keeps P s
  obtain ⟨hp, hr, hpm25, haqi, hcat⟩ := bodyVal_later_stages P s
  obtain ⟨hheader, hmismatch, hvalid⟩ := bodyVal_outcomes P s
  have hg : Grounded (bodyVal P s) := h.grounded.of_eq hframe hpe hpec h7 h10
  have hn : NoConcentration (bodyVal P s) := ⟨hp, hpm25, hr, haqi, hcat⟩
  cases hh : hdrOk P s.frame with
  | false =>
    obtain ⟨hv, herr, hsum⟩ := hheader hh
    exact .of_not_v hg hv hn (.inr (.inl ⟨herr, hsum, by rw [hframe, hh]⟩))
  | true =>
    by_cases hs : sum16 s.frame = declared s.frame
    · obtain ⟨hv, herr, hsum⟩ := hvalid hh hs
      exact .of_validated hg ⟨hv, by rw [hframe, hh], by rw [hframe, hsum], by rw [hframe, hsum, hs]⟩ hn herr
    · obtain ⟨hv, herr, hsum⟩ := hmismatch hh hs
      exact .of_not_v hg hv hn (.inr (.inr ⟨herr, by rw [hframe, hh], by rw [hframe, hsum], by rwa [hframe, hsum]⟩))

/-- R34, R122: `DEC`, with both outcomes. -/
theorem StateInv.after_dec {P : Params} {s : State} (h : StateInv P s) : StateInv P (bodyDec P s) := by
  cases hv : s.v with
  | false => exact bodyDec_of_not_v hv ▸ h.after_raise .notValidated
  | true =>
    obtain ⟨hframe, -, -, hvKept, hsum, -⟩ := bodyDec_keeps P s
    obtain ⟨hpm25, hp, hr, herr, haqi, hcat⟩ := bodyDec_writes_of_v P hv
    have hg : Grounded (bodyDec P s) := by simpa [Grounded, bodyDec_of_v hv] using h.grounded
    have hval : Validated P (bodyDec P s) := by
      rw [Validated, hvKept, hframe, hsum]
      exact ⟨hv, h.validated hv⟩
    exact .of_extracted hg ⟨hval, hp, by rw [hpm25, hframe]⟩ ⟨hr, haqi, hcat⟩ (.inl herr)

/-- R34, R140: `AQI`, with each of its three outcomes. -/
theorem StateInv.after_aqi {P : Params} {s : State} (ht : tableWf P.bpTable = true) (h : StateInv P s) :
    StateInv P (bodyAqi P s) := by
  cases hp : s.p with
  | false => exact bodyAqi_of_not_p hp ▸ h.after_raise .noConcentration
  | true =>
    obtain ⟨hframe, -, -, hvKept, hpKept, hsum, hpm25, -⟩ := bodyAqi_keeps P s
    have hv : s.v = true := h.p_needs_v hp
    have hex : Extracted P (bodyAqi P s) := by
      rw [Extracted, Validated, hvKept, hpKept, hframe, hsum, hpm25]
      exact ⟨⟨hv, h.validated hv⟩, hp, h.decoded hp⟩
    cases hc : compute P.bpTable s.pm25 with
    | outOfRange =>
      obtain ⟨hr, herr, haqi, hcat⟩ := bodyAqi_writes_of_outOfRange hp hc
      have hg : Grounded (bodyAqi P s) := by simpa [Grounded, bodyAqi_of_outOfRange hp hc] using h.grounded
      exact .of_extracted hg hex ⟨hr, haqi, hcat⟩ (.inr ⟨herr, by rw [hpm25, hc]⟩)
    | result x k =>
      obtain ⟨hr, herr, haqi, hcat⟩ := bodyAqi_writes_of_result hp hc
      have hg : Grounded (bodyAqi P s) := by simpa [Grounded, bodyAqi_of_result hp hc] using h.grounded
      exact .of_result hg hex hr (by rw [hpm25, haqi, hcat, hc]) ht herr

/-- R34, R160: `RUN` is a sequence of the three stages. -/
theorem StateInv.after_run {P : Params} {s : State} (ht : tableWf P.bpTable = true) (h : StateInv P s) :
    StateInv P (bodyRun P s) := by
  cases hv : (bodyVal P s).v with
  | false =>
    rw [bodyRun_of_not_v hv]
    exact h.after_val
  | true =>
    rw [bodyRun_of_v hv]
    exact h.after_val.after_dec.after_aqi ht

/-! ### The step -/

/-- R176: the protocol-error guard keeps what the body keeps. -/
theorem StateInv.after_guard {P : Params} {body : State → State} {s : State} (h : StateInv P s)
    (hbody : StateInv P (body s)) : StateInv P (unlessProtocolError body s) := by
  cases hpe : s.pe with
  | true => rwa [unlessProtocolError_of_pe hpe]
  | false => rwa [unlessProtocolError_of_not_pe hpe]

/-- R34: every command keeps the invariants. -/
theorem StateInv.after_effect {P : Params} {s : State} (ht : tableWf P.bpTable = true) (h : StateInv P s) (i : Instr) :
    StateInv P (effectAt P i s) := by
  cases i with
  | clr => exact stateInv_resetAll P s
  | nop => exact h.after_guard h
  | ldb a d => exact h.after_guard (h.after_ldb a d)
  | val => exact h.after_guard h.after_val
  | dec => exact h.after_guard h.after_dec
  | aqi => exact h.after_guard (h.after_aqi ht)
  | run => exact h.after_guard (h.after_run ht)

theorem tableWf_of_wf {P : Params} (hP : P.wf = true) : tableWf P.bpTable = true := by
  simp only [Params.wf, Bool.and_eq_true] at hP
  exact hP.2

/-- R34: every step keeps the invariants. -/
theorem StateInv.after_step {P : Params} {s t : State} (hP : P.wf = true) (h : StateInv P s) (hs : stepAt P s = .next t) :
    StateInv P t := by
  have htaken (l : List PortSample) : StateInv P (acceptWord (s.setPending l)) := h.setHost l _
  rcases stepAt_cases hP s with ⟨l, hcase⟩ | ⟨l, hcase⟩ | ⟨l, i, hcase⟩ | ⟨l, hcase⟩
  all_goals
    obtain rfl := Host.Outcome.next.inj (hcase.symm.trans hs)
  · exact h.setHost l s.accepted
  · exact stateInv_resetAll P _
  · exact (htaken l).after_effect (tableWf_of_wf hP) i
  · exact (htaken l).after_guard ((htaken l).after_raise .illegalCommand)

/-- Settles O47: the reset state is `resetAll` of itself. -/
theorem resetSatisfiesTheInvariants : Obligations.ResetSatisfiesTheInvariants :=
  fun P host => stateInv_resetAll P { State.reset with pending := host }

/-- Settles O49: the reset state meets the invariants, and every case of a step keeps them. -/
theorem invariantsForAllParameters : Obligations.InvariantsForAllParameters :=
  fun P hP => ⟨resetSatisfiesTheInvariants P, fun _ _ h hs => h.after_step hP hs⟩

/-- Settles O48: the step of the built machine is the step at the built parameters. -/
theorem stepKeepsTheInvariants : Obligations.StepKeepsTheInvariants :=
  fun s _ h hs => h.after_step built_wf ((stepAt_built s).trans hs)

/-! ### What a result means -/

/-- R34 along every run. -/
theorem Reachable.stateInv {P : Params} {s : State} (hP : P.wf = true) (h : Reachable P s) : StateInv P s := by
  induction h with
  | start host => exact resetSatisfiesTheInvariants P host
  | step _ hs ih => exact ih.after_step hP hs

/-- R34 item 2: a validated frame passes both checks. -/
theorem StateInv.validate_eq_valid {P : Params} {s : State} (h : StateInv P s) (hv : s.v = true) :
    validate P s.frame = .valid := by
  obtain ⟨hh, hsum, hdeclared⟩ := h.validated hv
  obtain ⟨-, -, hvalid⟩ := validateAnswers P s.frame
  exact hvalid.mpr ⟨hh, hsum.symm.trans hdeclared⟩

/-- R38: when a result is shown, and what. -/
theorem State.shows_iff (s : State) (c idx : Word) (k : BitVec 3) :
    s.Shows c idx k ↔ s.r = true ∧ s.pm25 = c ∧ s.aqi = idx ∧ s.cat = k := by
  simp [State.Shows, State.result]

theorem State.result_eq_none_iff (s : State) : s.result = none ↔ s.r = false := by simp [State.result]

theorem State.concentration_eq_some_iff (s : State) (c : Word) :
    s.concentration = some c ↔ s.p = true ∧ s.pm25 = c := by
  simp [State.concentration]

theorem State.concentration_eq_none_iff (s : State) : s.concentration = none ↔ s.p = false := by
  simp [State.concentration]

/-- Settles O50: a reachable state meets the invariants, whose items 1 to 5 are the four clauses. -/
theorem shownResultsAreGenuine : Obligations.ShownResultsAreGenuine := by
  intro P s hP hreach
  have h : StateInv P s := hreach.stateInv hP
  refine ⟨fun c idx k hshows => ?result, fun c hc => ?concentration, fun hn => ?noResult, fun hn => ?noConcentration⟩
  case result =>
    obtain ⟨hr, rfl, rfl, rfl⟩ := (s.shows_iff c idx k).mp hshows
    have hp : s.p = true := h.r_needs_p hr
    obtain ⟨hcompute, hindex, hcat, -⟩ := h.computed hr
    exact ⟨h.validate_eq_valid (h.p_needs_v hp), h.decoded hp, hcompute, hindex, hcat⟩
  case concentration =>
    obtain ⟨hp, rfl⟩ := (s.concentration_eq_some_iff c).mp hc
    exact ⟨h.validate_eq_valid (h.p_needs_v hp), h.decoded hp⟩
  case noResult => exact h.no_result (s.result_eq_none_iff.mp hn)
  case noConcentration => exact h.no_concentration (s.concentration_eq_none_iff.mp hn)

/-! ### The ports -/

/-- A mask leaves a field all of whose bits it has, and a field that is zero. -/
theorem getField_and_eq {x m : Word} {lo n : Nat} (h : getField m lo n = BitVec.allOnes n ∨ getField x lo n = 0) :
    getField (x &&& m) lo n = getField x lo n := by
  have hand : getField (x &&& m) lo n = getField x lo n &&& getField m lo n := BitVec.extractLsb'_and
  rcases h with h | h
  · rw [hand, h, BitVec.and_allOnes]
  · rw [hand, h]
    exact BitVec.zero_and

/-- R27: the mask keeps every bit that has a field, and reserved bits that are zero. -/
theorem and_stFields_of_reserved {x : Word} (h7 : getField x 7 1 = 0) (h10 : getField x 10 6 = 0) :
    x &&& stFields = x := by
  apply status_ext
  case h7 => exact getField_and_eq (.inr h7)
  case h10 => exact getField_and_eq (.inr h10)
  all_goals exact getField_and_eq (.inl (by decide))

/-- R36: `st_o` shows no reserved bit. -/
theorem State.ports_st_reserved (s : State) : s.ports.st &&& 0xFC80 = 0 := by
  have hmask : stFields &&& (0xFC80 : Word) = 0 := by decide
  rw [State.ports, BitVec.and_assoc, hmask]
  exact BitVec.and_zero

/-- Settles O51: the mask of the ports, over any state and over one whose reserved bits are zero. -/
theorem portsShowTheRegisters : Obligations.PortsShowTheRegisters := by
  refine ⟨fun s => ⟨s.ports_st_reserved, s.ports_cmdReady⟩, fun P s h => ⟨?st, rfl, rfl, rfl, rfl⟩⟩
  case st =>
    obtain ⟨h7, h10⟩ := h.reserved
    exact and_stFields_of_reserved h7 h10

end Sys2Proof.Machine
end

section
/-! PROOFS. What the checksum catches, and the zero frame (spec/41_validate.md R102, R106, spec/70_reset_and_hazards.md R191). -/

namespace Sys2Proof.Machine

/-! ### The sum -/

/-- R102: thirty bytes sum to at most 7650. -/
theorem sum_bytes_le (F : Memory) : ∑ a ∈ Finset.range 30, (F.read (BitVec.ofNat 5 a)).toNat ≤ 7650 := by
  have hbyte : ∀ a ∈ Finset.range 30, (F.read (BitVec.ofNat 5 a)).toNat ≤ 255 := fun a _ =>
    Nat.le_of_lt_succ (F.read (BitVec.ofNat 5 a)).isLt
  simpa using Finset.sum_le_card_nsmul _ _ _ hbyte

/-- R102: the modulo of R101 never acts. -/
theorem toNat_sum16_eq_sum (F : Memory) :
    (sum16 F).toNat = ∑ a ∈ Finset.range 30, (F.read (BitVec.ofNat 5 a)).toNat := by
  rw [toNat_sum16, Nat.mod_eq_of_lt]
  exact (sum_bytes_le F).trans_lt (by decide)

theorem toNat_sum16_le (F : Memory) : (sum16 F).toNat ≤ 7650 := toNat_sum16_eq_sum F ▸ sum_bytes_le F

/-- Settles O35: the bound of the sum makes the modulo idle and a larger declared checksum a mismatch. -/
theorem checksumIsThePlainSum : Obligations.ChecksumIsThePlainSum := by
  refine fun F => ⟨toNat_sum16_eq_sum F, toNat_sum16_le F, fun P hlarge hvalid => ?_⟩
  obtain ⟨-, -, hiff⟩ := validateAnswers P F
  obtain ⟨-, hs⟩ := hiff.mp hvalid
  have hle : (sum16 F).toNat ≤ 7650 := toNat_sum16_le F
  rw [hs] at hle
  omega

/-- R101: writing a summed byte exchanges its contribution. -/
theorem Memory.sumBytes_write_of_lt (F : Memory) {n : Nat} {a : Addr} (d : Byte) (h : a.toNat < n) (hn : n ≤ 32) :
    (F.write a d).sumBytes n + (F.read a).toNat = F.sumBytes n + d.toNat := by
  induction n with
  | zero => omega
  | succ n ih =>
    have hlast : (BitVec.ofNat 5 n).toNat = n := Nat.mod_eq_of_lt (by omega)
    rw [Memory.sumBytes, Memory.sumBytes]
    by_cases ha : a.toNat = n
    · obtain rfl : BitVec.ofNat 5 n = a := BitVec.eq_of_toNat_eq (hlast.trans ha.symm)
      rw [Memory.read_write_same, F.sumBytes_write_of_le d hlast.ge]
      omega
    · have hne : BitVec.ofNat 5 n ≠ a := fun e => ha (e ▸ hlast)
      rw [Memory.read_write_other F d hne]
      have := ih (by omega) (by omega)
      omega

/-- R102: the checksum is the accumulated sum. -/
theorem toNat_sum16_eq_sumBytes (F : Memory) : (sum16 F).toNat = F.sumBytes 30 := by
  rw [toNat_sum16_eq_sum, F.sumBytes_eq_sum]

/-- R106: the checksum of a frame in which one summed byte was changed. -/
theorem toNat_sum16_write (F : Memory) {a : Addr} (d : Byte) (h : a.toNat < 30) :
    (sum16 (F.write a d)).toNat + (F.read a).toNat = (sum16 F).toNat + d.toNat := by
  rw [toNat_sum16_eq_sumBytes, toNat_sum16_eq_sumBytes]
  exact F.sumBytes_write_of_lt d h (by decide)

/-! ### The parts of a frame that a write leaves -/

/-- R103: the declared checksum is its two bytes. -/
theorem declared_eq (F : Memory) : declared F = F.read 0x1E ++ F.read 0x1F := rfl

theorem declared_write_of_lt (F : Memory) {a : Addr} (d : Byte) (h : a.toNat < 30) : declared (F.write a d) = declared F := by
  have h1E : (0x1E : Addr) ≠ a := by rintro rfl; exact absurd h (by decide)
  have h1F : (0x1F : Addr) ≠ a := by rintro rfl; exact absurd h (by decide)
  rw [declared_eq, declared_eq, Memory.read_write_other F d h1E, Memory.read_write_other F d h1F]

theorem hdrOk_write_of_le (P : Params) (F : Memory) {a : Addr} (d : Byte) (h : 2 ≤ a.toNat) :
    hdrOk P (F.write a d) = hdrOk P F := by
  have h0 : (0x00 : Addr) ≠ a := by rintro rfl; exact absurd h (by decide)
  have h1 : (0x01 : Addr) ≠ a := by rintro rfl; exact absurd h (by decide)
  exact hdrOk_congr P (Memory.read_write_other F d h0) (Memory.read_write_other F d h1)

/-! ### A change of one byte -/

/-- R106 (b): a change of a header byte breaks the header. -/
theorem hdrOk_write_of_lt {P : Params} {F : Memory} {a : Addr} {d : Byte} (hh : hdrOk P F = true) (hd : d ≠ F.read a)
    (h : a.toNat < 2) : hdrOk P (F.write a d) = false := by
  rw [← Bool.not_eq_true, hdrOk_iff]
  obtain ⟨h0, h1⟩ := (hdrOk_iff P F).mp hh
  rintro ⟨h0', h1'⟩
  have ha : a = 0x00 ∨ a = 0x01 := by bv_omega
  rcases ha with rfl | rfl
  · rw [Memory.read_write_same] at h0'
    exact hd (h0'.trans h0.symm)
  · rw [Memory.read_write_same] at h1'
    exact hd (h1'.trans h1.symm)

/-- Two pairs of bytes that make the same word are the same. -/
theorem append_bytes_inj {a b c d : Byte} (h : a ++ b = c ++ d) : a = c ∧ b = d := by
  have hnat := congrArg BitVec.toNat h
  rw [toNat_append_bytes, toNat_append_bytes] at hnat
  exact ⟨BitVec.eq_of_toNat_eq (by omega), BitVec.eq_of_toNat_eq (by omega)⟩

/-- R106 (b): a change of a checksum byte changes the declared checksum. -/
theorem declared_write_ne {F : Memory} {a : Addr} {d : Byte} (h : 30 ≤ a.toNat) (hd : d ≠ F.read a) :
    declared (F.write a d) ≠ declared F := by
  intro heq
  obtain ⟨hhigh, hlow⟩ := append_bytes_inj heq
  have ha : a = 0x1E ∨ a = 0x1F := by bv_omega
  rcases ha with rfl | rfl
  · exact hd ((F.read_write_same _ d).symm.trans hhigh)
  · exact hd ((F.read_write_same _ d).symm.trans hlow)

/-- R106 (b): a change of a summed byte changes the sum, one of a checksum byte the declared checksum, and never both. -/
theorem checksum_write_ne {F : Memory} {a : Addr} {d : Byte} (hs : sum16 F = declared F) (hd : d ≠ F.read a) :
    sum16 (F.write a d) ≠ declared (F.write a d) := by
  by_cases ha : a.toNat < 30
  · have hdNat : d.toNat ≠ (F.read a).toNat := fun e => hd (BitVec.eq_of_toNat_eq e)
    rw [declared_write_of_lt F d ha, ← hs]
    intro heq
    have hsum := toNat_sum16_write F d ha
    rw [heq] at hsum
    omega
  · rw [sum16_write_of_le F d (not_lt.mp ha), hs]
    exact (declared_write_ne (not_lt.mp ha) hd).symm

/-- R106 (b): every change of one byte of a valid frame is caught, at the header bytes as InvalidHeader. -/
theorem validate_write {P : Params} {F : Memory} {a : Addr} {d : Byte} (hvalid : validate P F = .valid)
    (hd : d ≠ F.read a) :
    validate P (F.write a d) = if a.toNat < 2 then .invalidHeader else .checksumMismatch := by
  obtain ⟨-, -, hiff⟩ := validateAnswers P F
  obtain ⟨hheader, hmismatch, -⟩ := validateAnswers P (F.write a d)
  obtain ⟨hh, hs⟩ := hiff.mp hvalid
  by_cases ha : a.toNat < 2
  · rw [if_pos ha]
    exact hheader.mpr (hdrOk_write_of_lt hh hd ha)
  · rw [if_neg ha]
    exact hmismatch.mpr ⟨by rw [hdrOk_write_of_le P F d (not_lt.mp ha), hh], checksum_write_ne hs hd⟩

/-! ### A change that is not caught -/

/-- R104: the verdict depends on the header, the sum and the declared checksum. -/
theorem validate_congr {P : Params} {F G : Memory} (hh : hdrOk P G = hdrOk P F) (hs : sum16 G = sum16 F)
    (hd : declared G = declared F) : validate P G = validate P F := by
  rw [validate, validate, hh, hs, hd]

/-- R106 (c): swapping two summed bytes leaves the sum. -/
theorem sum16_swap (F : Memory) {a b : Addr} (ha : a.toNat < 30) (hb : b.toNat < 30) :
    sum16 ((F.write a (F.read b)).write b (F.read a)) = sum16 F := by
  have hread : (F.write a (F.read b)).read b = F.read b := by
    rw [Memory.read_write, ite_self]
  have hfirst := toNat_sum16_write F (F.read b) ha
  have hsecond := toNat_sum16_write (F.write a (F.read b)) (F.read a) hb
  rw [hread] at hsecond
  exact BitVec.eq_of_toNat_eq (by omega)

/-- R106 (c): swapping two summed bytes behind the header keeps the verdict. -/
theorem validate_swap (P : Params) (F : Memory) {a b : Addr} (ha : 2 ≤ a.toNat) (ha' : a.toNat < 30)
    (hb : 2 ≤ b.toNat) (hb' : b.toNat < 30) :
    validate P ((F.write a (F.read b)).write b (F.read a)) = validate P F := by
  apply validate_congr
  case hh => rw [hdrOk_write_of_le P _ _ hb, hdrOk_write_of_le P F _ ha]
  case hs => exact sum16_swap F ha' hb'
  case hd => rw [declared_write_of_lt _ _ hb', declared_write_of_lt F _ ha']

/-- Settles O37: (a) the sum is the declared 552; (b) one changed byte; (c) what the verdict depends on, and the swap. -/
theorem whatTheChecksumCatches : Obligations.WhatTheChecksumCatches := by
  refine fun P F => ⟨fun hh hsum h1E h1F => ?property552, fun a d hvalid hd => validate_write hvalid hd,
    fun G h0 h1 hs hd => validate_congr (hdrOk_congr P h0 h1) hs hd,
    fun a b ha ha' hb hb' => validate_swap P F ha ha' hb hb'⟩
  case property552 =>
    obtain ⟨-, -, hiff⟩ := validateAnswers P F
    refine hiff.mpr ⟨hh, BitVec.eq_of_toNat_eq ?_⟩
    rw [toNat_sum16, hsum, declared_eq, h1E, h1F]
    rfl

/-! ### The zero frame -/

/-- R191: a frame of zero bytes has a right header only for the zero signature. -/
theorem hdrOk_of_zero {P : Params} {F : Memory} (hF : ∀ a : Addr, F.read a = 0x00) :
    hdrOk P F = true ↔ P.hdrSig = 0 := by
  rw [hdrOk_iff_toNat, hF, hF, ← BitVec.toNat_inj]
  simp only [BitVec.toNat_ofNat, Nat.zero_mod, BitVec.ofNat_eq_ofNat]
  omega

theorem be16_of_zero {F : Memory} (hF : ∀ a : Addr, F.read a = 0x00) (a : Fin 31) : F.be16 a = 0 := by
  rw [Memory.be16, hF, hF]
  rfl

theorem sum16_of_zero {F : Memory} (hF : ∀ a : Addr, F.read a = 0x00) : sum16 F = 0 := by
  apply BitVec.eq_of_toNat_eq
  rw [toNat_sum16_eq_sum]
  exact Finset.sum_eq_zero fun a _ => congrArg BitVec.toNat (hF _)

/-- R191: `RUN` in the reset state reports InvalidHeader. -/
theorem exec_run_reset : exec .run State.reset = .next (rejectHeader State.reset) := by
  have hheader : hdrOk built State.reset.frame = false := by decide
  rw [exec_run_of_not_pe (by decide), bodyRun_of_bad_header hheader]

/-- Settles O38: the header of a zero frame decides by the signature; with the zero one both sides of the checksum are 0. -/
theorem resetFrameIsRejected : Obligations.ResetFrameIsRejected := by
  refine ⟨Memory.read_nil, fun P F hF => ⟨fun hsig => ?rejected, fun hsig => ⟨?accepted, be16_of_zero hF _⟩⟩, by decide,
    rejectHeader State.reset, exec_run_reset, by decide⟩
  case rejected =>
    obtain ⟨hiff, -, -⟩ := validateAnswers P F
    exact hiff.mpr (by rwa [← Bool.not_eq_true, hdrOk_of_zero hF])
  case accepted =>
    obtain ⟨-, -, hiff⟩ := validateAnswers P F
    exact hiff.mpr ⟨(hdrOk_of_zero hF).mpr hsig, (sum16_of_zero hF).trans (be16_of_zero hF _).symm⟩

end Sys2Proof.Machine
end

section
/-! PROOFS. `RUN` as its three stages, and commands that are repeated (spec/44_pipeline.md R161, spec/20_memory.md R55). -/

namespace Sys2Proof.Machine

/-! ### `RUN` as its three stages -/

/-- Settles O24: `V` after `VAL` decides; each stage that runs leaves `PE` at 0, and `RUN` is their composition. -/
theorem runIsTheThreeStages : Obligations.RunIsTheThreeStages := by
  intro s hpe
  have hval : (bodyVal built s).pe = false := ((bodyVal_outside built s).pe_eq (by decide)).trans hpe
  refine ⟨bodyVal built s, exec_val_of_not_pe hpe, hval, fun hv => ?goesOn, fun hv => ?stops⟩
  case goesOn =>
    obtain ⟨-, hp, -⟩ := bodyDec_after_val hv
    have hdec : (bodyDec built (bodyVal built s)).pe = false :=
      ((bodyDec_outside_of_v built hv).pe_eq (by decide)).trans hval
    have haqi : (bodyAqi built (bodyDec built (bodyVal built s))).pe = false :=
      ((bodyAqi_outside_of_p built hp).pe_eq (by decide)).trans hdec
    exact ⟨_, _, exec_dec_of_not_pe hval, exec_aqi_of_not_pe hdec, by rw [exec_run_of_not_pe hpe, bodyRun_of_v hv], haqi⟩
  case stops =>
    obtain ⟨hraised, hpec, -, hregisters, hframe, -⟩ := raiseProtocolError_effect .notValidated (bodyVal built s)
    exact ⟨by rw [exec_run_of_not_pe hpe, bodyRun_of_not_v hv], _,
      by rw [exec_dec_of_not_pe hval, bodyDec_of_not_v hv], hraised, hpec, hregisters, hframe⟩

/-! ### States that differ in nothing a command writes -/

theorem SameStatusOutside.symm {mask : Word} {s t : State} (h : SameStatusOutside mask s t) :
    SameStatusOutside mask t s := Eq.symm h

/-- Two one-bit fields that are the same truth value are the same bit. -/
theorem bit_eq_of_decide_eq {x y : BitVec 1} (h : decide (x = 1#1) = decide (y = 1#1)) : x = y := by
  rw [← ofBool_decide_eq_one x, ← ofBool_decide_eq_one y, h]

/-- The frame, the host's side and the bits of `ST` beside the stage bits and `ERR`: what no stage of the pipeline writes. -/
def SameInputs (s t : State) : Prop :=
  t.frame = s.frame ∧ t.pending = s.pending ∧ t.accepted = s.accepted ∧ SameStatusOutside 0x0077 s t

/-- Everything that the stages of the pipeline write. -/
def SameOutputs (s t : State) : Prop :=
  SameRegisters s t ∧ t.v = s.v ∧ t.p = s.p ∧ t.r = s.r ∧ t.err = s.err

theorem SameInputs.symm {s t : State} (h : SameInputs s t) : SameInputs t s := by
  obtain ⟨hf, hp, ha, hst⟩ := h
  exact ⟨hf.symm, hp.symm, ha.symm, hst.symm⟩

theorem SameInputs.trans {s t u : State} (h : SameInputs s t) (h' : SameInputs t u) : SameInputs s u := by
  obtain ⟨hf, hp, ha, hst⟩ := h
  obtain ⟨hf', hp', ha', hst'⟩ := h'
  exact ⟨hf'.trans hf, hp'.trans hp, ha'.trans ha, hst.trans hst'⟩

/-- Together they are the whole state. -/
theorem eq_of_same {s t : State} (hin : SameInputs s t) (hout : SameOutputs s t) : t = s := by
  obtain ⟨hframe, hpending, haccepted, hst⟩ := hin
  obtain ⟨⟨hsum, hpm25, haqi, hcat⟩, hv, hp, hr, herr⟩ := hout
  refine State.ext_fields hframe hsum hpm25 haqi hcat hpending haccepted ?_
  apply status_ext
  case hv => exact bit_eq_of_decide_eq hv
  case hp => exact bit_eq_of_decide_eq hp
  case hr => exact bit_eq_of_decide_eq hr
  case herr => exact herr
  all_goals exact hst.getField_eq (by decide)

/-! ### Each body repeated -/

theorem bodyVal_sameInputs (P : Params) (s : State) : SameInputs s (bodyVal P s) := by
  obtain ⟨hframe, hpending, haccepted, -⟩ := bodyVal_keeps P s
  exact ⟨hframe, hpending, haccepted, bodyVal_outside P s⟩

theorem bodyRun_sameInputs (P : Params) (s : State) : SameInputs s (bodyRun P s) := by
  obtain ⟨hframe, hpending, haccepted⟩ := bodyRun_keeps P s
  exact ⟨hframe, hpending, haccepted, bodyRun_outside P s⟩

/-- R104, R108: what `VAL` writes to `V`, `ERR` and `SUM`, by the verdict on the frame. -/
def valWrites (P : Params) (F : Memory) : Bool × BitVec 3 × Word :=
  match validate P F with
  | .invalidHeader => (false, 1, 0)
  | .checksumMismatch => (false, 2, sum16 F)
  | .valid => (true, 0, sum16 F)

theorem bodyVal_writes (P : Params) (s : State) :
    ((bodyVal P s).v, (bodyVal P s).err, (bodyVal P s).sum) = valWrites P s.frame := by
  obtain ⟨hheader, hmismatch, hvalid⟩ := bodyVal_of_verdict P s
  cases hverdict : validate P s.frame with
  | invalidHeader => simp [valWrites, hverdict, hheader hverdict]
  | checksumMismatch => simp [valWrites, hverdict, hmismatch hverdict]
  | valid => simp [valWrites, hverdict, hvalid hverdict]

/-- R108: of a state `VAL` reads only what no stage writes. -/
theorem bodyVal_congr (P : Params) {s t : State} (h : SameInputs s t) : bodyVal P t = bodyVal P s := by
  have hin : SameInputs (bodyVal P s) (bodyVal P t) :=
    ((bodyVal_sameInputs P s).symm.trans h).trans (bodyVal_sameInputs P t)
  obtain ⟨hframe, -⟩ := h
  obtain ⟨hp, hr, hpm25, haqi, hcat⟩ := bodyVal_later_stages P s
  obtain ⟨hp', hr', hpm25', haqi', hcat'⟩ := bodyVal_later_stages P t
  have hwrites := (bodyVal_writes P t).trans ((congrArg (valWrites P) hframe).trans (bodyVal_writes P s).symm)
  obtain ⟨hv, herr, hsum⟩ : _ ∧ _ ∧ _ := by simpa only [Prod.mk.injEq] using hwrites
  exact eq_of_same hin ⟨⟨hsum, hpm25'.trans hpm25.symm, haqi'.trans haqi.symm, hcat'.trans hcat.symm⟩, hv,
    hp'.trans hp.symm, hr'.trans hr.symm, herr⟩

theorem bodyVal_bodyVal (P : Params) (s : State) : bodyVal P (bodyVal P s) = bodyVal P s :=
  bodyVal_congr P (bodyVal_sameInputs P s)

/-- R160: `RUN` begins with `VAL`, which finds the same after a first `RUN`. -/
theorem bodyRun_bodyRun (P : Params) (s : State) : bodyRun P (bodyRun P s) = bodyRun P s := by
  have hval : bodyVal P (bodyRun P s) = bodyVal P s := bodyVal_congr P (bodyRun_sameInputs P s)
  cases hv : (bodyVal P s).v with
  | false =>
    rw [bodyRun_of_not_v (s := bodyRun P s) (by rw [hval, hv]), hval, bodyRun_of_not_v hv]
  | true =>
    rw [bodyRun_of_v (s := bodyRun P s) (by rw [hval, hv]), hval, bodyRun_of_v hv]

/-- Taking an entry out again undoes placing it. -/
theorem Memory.erase_place (m : Memory) (a : Nat) (d : Byte) : (m.place a d).erase a = m.erase a := by
  induction m with
  | nil => simp [place, erase]
  | cons c t ih =>
    obtain ⟨k, b⟩ := c
    by_cases hlt : a < k
    · simp [place, hlt, erase]
    · simp only [erase, ne_eq, decide_not] at ih
      simp [place, hlt, erase, List.filter_cons, ih]

theorem Memory.erase_erase (m : Memory) (a : Nat) : (m.erase a).erase a = m.erase a := by simp [erase]

theorem Memory.erase_insert (m : Memory) (a : Nat) (d : Byte) : (m.insert a d).erase a = m.erase a := by
  by_cases hd : d = unlisted
  · rw [insert, if_pos hd, erase_erase]
  · rw [insert, if_neg hd, erase_place, erase_erase]

/-- In every frame, canonical or not, the second write of a byte leaves no trace of the first. -/
theorem Memory.write_write_same (F : Memory) (a : Addr) (d e : Byte) : (F.write a d).write a e = F.write a e := by
  have hinsert (m : Memory) : m.insert a.toNat e = (m.erase a.toNat).insert a.toNat e := by
    rw [insert, insert, erase_erase]
  rw [write, write, write, hinsert, erase_insert, ← hinsert]

/-- R92: two loads leave the same in everything that the stages of the pipeline write, which is its invalid values. -/
theorem bodyLdb_sameOutputs (a b : Addr) (d e : Byte) (s t : State) :
    SameOutputs (bodyLdb a d s) (bodyLdb b e t) := by
  obtain ⟨hv, hp, hr, herr, hsum, hpm25, haqi, hcat⟩ := bodyLdb_invalid a d s
  obtain ⟨hv', hp', hr', herr', hsum', hpm25', haqi', hcat'⟩ := bodyLdb_invalid b e t
  exact ⟨⟨hsum'.trans hsum.symm, hpm25'.trans hpm25.symm, haqi'.trans haqi.symm, hcat'.trans hcat.symm⟩,
    hv'.trans hv.symm, hp'.trans hp.symm, hr'.trans hr.symm, herr'.trans herr.symm⟩

/-- R92: a load repeated. -/
theorem bodyLdb_bodyLdb (a : Addr) (d : Byte) (s : State) : bodyLdb a d (bodyLdb a d s) = bodyLdb a d s := by
  obtain ⟨hpending, haccepted⟩ := bodyLdb_host a d (bodyLdb a d s)
  have hframe : (bodyLdb a d (bodyLdb a d s)).frame = (bodyLdb a d s).frame := by
    rw [bodyLdb_frame, bodyLdb_frame, Memory.write_write_same]
  exact eq_of_same ⟨hframe, hpending, haccepted, bodyLdb_outside a d _⟩ (bodyLdb_sameOutputs a a d d s _)

/-- R122: `DEC` repeated on a validated frame. -/
theorem bodyDec_bodyDec (P : Params) {s : State} (hv : s.v = true) : bodyDec P (bodyDec P s) = bodyDec P s := by
  obtain ⟨hframe, -, -, hvKept, -⟩ := bodyDec_keeps P s
  have hv' : (bodyDec P s).v = true := hvKept.trans hv
  obtain ⟨hframe', hpending', haccepted', hvKept', hsumKept', -⟩ := bodyDec_keeps P (bodyDec P s)
  obtain ⟨hpm25, hp, hr, herr, haqi, hcat⟩ := bodyDec_writes_of_v P hv
  obtain ⟨hpm25', hp', hr', herr', haqi', hcat'⟩ := bodyDec_writes_of_v P hv'
  refine eq_of_same ⟨hframe', hpending', haccepted', (bodyDec_outside_of_v P hv').mono (by decide)⟩ ?outputs
  case outputs =>
    exact ⟨⟨hsumKept', by rw [hpm25', hpm25, hframe], haqi'.trans haqi.symm, hcat'.trans hcat.symm⟩, hvKept',
      hp'.trans hp.symm, hr'.trans hr.symm, herr'.trans herr.symm⟩

/-- R140: `AQI` repeated on a concentration. -/
theorem bodyAqi_bodyAqi (P : Params) {s : State} (hp : s.p = true) : bodyAqi P (bodyAqi P s) = bodyAqi P s := by
  obtain ⟨-, -, -, -, hpKept, -, hpm25Kept, -⟩ := bodyAqi_keeps P s
  have hp' : (bodyAqi P s).p = true := hpKept.trans hp
  obtain ⟨hframe, hpending, haccepted, hv, hpKept', hsum, hpm25, -⟩ := bodyAqi_keeps P (bodyAqi P s)
  have hin : SameInputs (bodyAqi P s) (bodyAqi P (bodyAqi P s)) :=
    ⟨hframe, hpending, haccepted, (bodyAqi_outside_of_p P hp').mono (by decide)⟩
  cases hc : compute P.bpTable s.pm25 with
  | outOfRange =>
    obtain ⟨hr, herr, haqi, hcat⟩ := bodyAqi_writes_of_outOfRange hp hc
    obtain ⟨hr', herr', haqi', hcat'⟩ := bodyAqi_writes_of_outOfRange hp' (by rw [hpm25Kept, hc])
    exact eq_of_same hin ⟨⟨hsum, hpm25, haqi'.trans haqi.symm, hcat'.trans hcat.symm⟩, hv, hpKept', hr'.trans hr.symm,
      herr'.trans herr.symm⟩
  | result x k =>
    obtain ⟨hr, herr, haqi, hcat⟩ := bodyAqi_writes_of_result hp hc
    obtain ⟨hr', herr', haqi', hcat'⟩ := bodyAqi_writes_of_result hp' (by rw [hpm25Kept, hc])
    exact eq_of_same hin ⟨⟨hsum, hpm25, haqi'.trans haqi.symm, hcat'.trans hcat.symm⟩, hv, hpKept', hr'.trans hr.symm,
      herr'.trans herr.symm⟩

/-! ### Each command repeated -/

/-- R176: under the guard a body is repeated only where its first run raised nothing. -/
theorem unlessProtocolError_idem {body : State → State} {s : State}
    (h : (body s).pe = false → body (body s) = body s) :
    unlessProtocolError body (unlessProtocolError body s) = unlessProtocolError body s := by
  cases hpe : s.pe with
  | true => rw [unlessProtocolError_of_pe hpe, unlessProtocolError_of_pe hpe]
  | false =>
    rw [unlessProtocolError_of_not_pe hpe]
    cases hbody : (body s).pe with
    | true => exact unlessProtocolError_of_pe hbody
    | false => rw [unlessProtocolError_of_not_pe hbody, h hbody]

/-- R175: a `DEC` that raised nothing had a validated frame. -/
theorem v_of_bodyDec_not_pe {P : Params} {s : State} (h : (bodyDec P s).pe = false) : s.v = true := by
  by_contra hv
  simp [bodyDec_of_not_v (Bool.eq_false_of_not_eq_true hv)] at h

/-- R175: an `AQI` that raised nothing had a concentration. -/
theorem p_of_bodyAqi_not_pe {P : Params} {s : State} (h : (bodyAqi P s).pe = false) : s.p = true := by
  by_contra hp
  simp [bodyAqi_of_not_p (Bool.eq_false_of_not_eq_true hp)] at h

/-- R55: every command, in every state. -/
theorem effectAt_effectAt (P : Params) (i : Instr) (s : State) : effectAt P i (effectAt P i s) = effectAt P i s := by
  cases i with
  | clr => rfl
  | nop => exact unlessProtocolError_idem fun _ => rfl
  | ldb a d => exact unlessProtocolError_idem fun _ => bodyLdb_bodyLdb a d s
  | val => exact unlessProtocolError_idem fun _ => bodyVal_bodyVal P s
  | dec => exact unlessProtocolError_idem fun h => bodyDec_bodyDec P (v_of_bodyDec_not_pe h)
  | aqi => exact unlessProtocolError_idem fun h => bodyAqi_bodyAqi P (p_of_bodyAqi_not_pe h)
  | run => exact unlessProtocolError_idem fun _ => bodyRun_bodyRun P s

/-- Settles O25: the effect of every command, repeated. -/
theorem everyCommandIsIdempotent : Obligations.EveryCommandIsIdempotent := by
  intro i s t h
  obtain rfl := Host.Outcome.next.inj ((exec_eq_effectAt i s).symm.trans h)
  rw [exec_eq_effectAt, effectAt_effectAt]

end Sys2Proof.Machine
end

section
/-! PROOFS. Sequences of loads (spec/40_frame_control.md R92) and the pseudo-commands that are loads (spec/30_encoding.md
R80). -/

namespace Sys2Proof.Machine

/-! ### The state after a sequence of loads -/

/-- The bodies of a list of loads, one after the other. -/
def afterLoads (l : List (Addr × Byte)) (s : State) : State := l.foldl (fun u x => bodyLdb x.1 x.2 u) s

theorem afterLoads_cons (a : Addr) (d : Byte) (l : List (Addr × Byte)) (s : State) :
    afterLoads ((a, d) :: l) s = afterLoads l (bodyLdb a d s) := rfl

/-- R57, R93: without protocol error the commands of a list of loads answer the state after it. -/
theorem execAll_loads (l : List (Addr × Byte)) {s : State} (hpe : s.pe = false) :
    execAll (loads l) s = .next (afterLoads l s) := by
  induction l generalizing s with
  | nil => rfl
  | cons x l ih =>
    obtain ⟨a, d⟩ := x
    have hnext : (bodyLdb a d s).pe = false := ((bodyLdb_outside a d s).pe_eq (by decide)).trans hpe
    have hunfold : execAll (loads ((a, d) :: l)) s = execAll (loads l) (bodyLdb a d s) := by
      simp [loads, execAll, exec_ldb_of_not_pe hpe]
    rw [hunfold, ih hnext, afterLoads_cons]

theorem lastLoaded_cons (a b : Addr) (d : Byte) (l : List (Addr × Byte)) :
    lastLoaded a ((b, d) :: l) = (lastLoaded a l).or (if b = a then some d else none) := by
  cases h : lastLoaded a l <;> simp [lastLoaded, h]

/-- R92: each byte is the last one loaded, or as before. -/
theorem read_afterLoads (l : List (Addr × Byte)) (s : State) (a : Addr) :
    (afterLoads l s).frame.read a = (lastLoaded a l).getD (s.frame.read a) := by
  induction l generalizing s with
  | nil => rfl
  | cons x l ih =>
    obtain ⟨b, d⟩ := x
    rw [afterLoads_cons, ih, bodyLdb_frame, Memory.read_write, lastLoaded_cons]
    cases lastLoaded a l with
    | some e => rfl
    | none =>
      by_cases h : b = a
      · simp [h]
      · simp [h, Ne.symm h]

theorem afterLoads_wf (l : List (Addr × Byte)) {s : State} (h : s.frame.wf = true) : (afterLoads l s).frame.wf = true := by
  induction l generalizing s with
  | nil => exact h
  | cons x l ih => exact ih (by rw [bodyLdb_frame]; exact Memory.write_wf _ _ h)

/-- R92: loads leave the host's side and what of `ST` no stage writes. -/
theorem afterLoads_keeps (l : List (Addr × Byte)) (s : State) :
    SameHost s (afterLoads l s) ∧ SameStatusOutside 0x0077 s (afterLoads l s) := by
  induction l generalizing s with
  | nil => exact ⟨⟨rfl, rfl⟩, rfl⟩
  | cons x l ih =>
    obtain ⟨a, d⟩ := x
    obtain ⟨⟨hpending, haccepted⟩, hst⟩ := ih (bodyLdb a d s)
    obtain ⟨hpending', haccepted'⟩ := bodyLdb_host a d s
    exact ⟨⟨hpending.trans hpending', haccepted.trans haccepted'⟩, (bodyLdb_outside a d s).trans hst⟩

/-- A sequence of loads ends with a load. -/
theorem afterLoads_eq_bodyLdb {l : List (Addr × Byte)} (hl : l ≠ []) (s : State) :
    ∃ a d u, afterLoads l s = bodyLdb a d u := by
  obtain ⟨init, x, rfl⟩ := List.eq_nil_or_concat l |>.resolve_left hl
  exact ⟨x.1, x.2, afterLoads init s, by simp [afterLoads]⟩

/-- R80, R92: only the last byte loaded at each address counts. -/
theorem afterLoads_congr {l l' : List (Addr × Byte)} {s : State} (hwf : s.frame.wf = true) (hl : l ≠ []) (hl' : l' ≠ [])
    (h : ∀ a : Addr, lastLoaded a l = lastLoaded a l') : afterLoads l' s = afterLoads l s := by
  obtain ⟨⟨hpending, haccepted⟩, hst⟩ := afterLoads_keeps l s
  obtain ⟨⟨hpending', haccepted'⟩, hst'⟩ := afterLoads_keeps l' s
  have hframe : (afterLoads l' s).frame = (afterLoads l s).frame :=
    Memory.ext_of_read (afterLoads_wf l' hwf) (afterLoads_wf l hwf) fun a => by
      rw [read_afterLoads, read_afterLoads, h]
  have hout : SameOutputs (afterLoads l s) (afterLoads l' s) := by
    obtain ⟨a, d, u, hu⟩ := afterLoads_eq_bodyLdb hl s
    obtain ⟨b, e, u', hu'⟩ := afterLoads_eq_bodyLdb hl' s
    rw [hu, hu']
    exact bodyLdb_sameOutputs a b d e u u'
  exact eq_of_same ⟨hframe, hpending'.trans hpending.symm, haccepted'.trans haccepted.symm, hst.symm.trans hst'⟩ hout

/-- Settles O29: both lists answer the state after them, which is one state. -/
theorem loadOrderDoesNotMatter : Obligations.LoadOrderDoesNotMatter := by
  intro l l' s hpe hwf hl hl' h
  refine ⟨afterLoads l s, execAll_loads l hpe, ?_, read_afterLoads l s⟩
  rw [execAll_loads l' hpe, afterLoads_congr hwf hl hl' h]

/-! ### `LDH` -/

/-- R80: the two loads of `LDH`, as (address, byte) pairs. -/
def halfPairs (a v : Nat) : List (Addr × Byte) :=
  [(BitVec.ofNat 5 a, BitVec.ofNat 8 (v / 256)), (BitVec.ofNat 5 (a + 1), BitVec.ofNat 8 (v % 256))]

theorem expand_ldh (a v : Nat) : (AsmCommand.ldh a v).expand = loads (halfPairs a v) := rfl

/-- Addresses below 32 are different numbers. -/
theorem ofNat_addr_ne {i j : Nat} (hi : i < 32) (hj : j < 32) (hne : i ≠ j) : BitVec.ofNat 5 i ≠ BitVec.ofNat 5 j := by
  rw [Ne, ← BitVec.toNat_inj, BitVec.toNat_ofNat, BitVec.toNat_ofNat, Nat.mod_eq_of_lt hi, Nat.mod_eq_of_lt hj]
  exact hne

/-- R51, R80: after the loads of `LDH a, v` the field at `a` is `v`. -/
theorem toNat_be16_after_ldh {a v : Nat} (ha : a ≤ 30) (hv : v < 65536) (s : State) :
    ((afterLoads (halfPairs a v) s).frame.be16 (Fin.ofNat 31 a)).toNat = v := by
  have hindex : (Fin.ofNat 31 a).val = a := Nat.mod_eq_of_lt (by omega)
  have hne : BitVec.ofNat 5 (a + 1) ≠ BitVec.ofNat 5 a := ofNat_addr_ne (by omega) (by omega) (by omega)
  have hhigh : lastLoaded (BitVec.ofNat 5 a) (halfPairs a v) = some (BitVec.ofNat 8 (v / 256)) := by
    simp [halfPairs, lastLoaded, hne]
  have hlow : lastLoaded (BitVec.ofNat 5 (a + 1)) (halfPairs a v) = some (BitVec.ofNat 8 (v % 256)) := by
    simp [halfPairs, lastLoaded]
  rw [Memory.toNat_be16, hindex, read_afterLoads, read_afterLoads, hhigh, hlow, Option.getD_some, Option.getD_some,
    BitVec.toNat_ofNat, BitVec.toNat_ofNat]
  omega

/-! ### `LDF` -/

/-- The loads of `LDF`, as (address, byte) pairs from the address `i` on. -/
def loadPairs (i : Nat) : List Nat → List (Addr × Byte)
  | [] => []
  | b :: t => (BitVec.ofNat 5 i, BitVec.ofNat 8 b) :: loadPairs (i + 1) t

theorem loadsFrom_eq_loads (i : Nat) (bs : List Nat) : loadsFrom i bs = loads (loadPairs i bs) := by
  induction bs generalizing i with
  | nil => rfl
  | cons b t ih => rw [loadsFrom, ih]; rfl

/-- R80: in ascending order the byte of the list at each address is loaded there, and once. -/
theorem lastLoaded_loadPairs {i : Nat} {bs : List Nat} (h : i + bs.length ≤ 32) (a : Addr) :
    lastLoaded a (loadPairs i bs) = if i ≤ a.toNat then bs[a.toNat - i]?.map (BitVec.ofNat 8) else none := by
  induction bs generalizing i with
  | nil => simp [loadPairs, lastLoaded]
  | cons b t ih =>
    have hlen : i + 1 + t.length ≤ 32 := by
      rw [List.length_cons] at h
      omega
    have hhere : BitVec.ofNat 5 i = a ↔ i = a.toNat := by
      rw [← BitVec.toNat_inj, BitVec.toNat_ofNat, Nat.mod_eq_of_lt (by omega)]
    rw [loadPairs, lastLoaded_cons, ih hlen]
    rcases lt_trichotomy i a.toNat with hlt | heq | hgt
    · have hsub : a.toNat - i = a.toNat - (i + 1) + 1 := by omega
      simp [hhere, hlt.ne, hlt.le, Nat.succ_le_of_lt hlt, hsub]
    · simp [heq]
    · simp [hhere, hgt.ne', hgt.not_ge, (Nat.lt_succ_of_lt hgt).not_ge]

theorem expand_ldf (bs : List Nat) : (AsmCommand.ldf bs).expand = loads (loadPairs 0 bs) := loadsFrom_eq_loads 0 bs

/-- R80: after the loads of `LDF` every byte is that of the list. -/
theorem toNat_read_after_ldf {bs : List Nat} (hlen : bs.length = 32) (hbytes : ∀ b ∈ bs, b < 256) (s : State) (a : Addr) :
    some ((afterLoads (loadPairs 0 bs) s).frame.read a).toNat = bs[a.toNat]? := by
  have hget : bs[a.toNat]? = some (bs[a.toNat]'(by omega)) := List.getElem?_eq_getElem _
  have hlast : lastLoaded a (loadPairs 0 bs) = bs[a.toNat]?.map (BitVec.ofNat 8) := by
    simpa using lastLoaded_loadPairs (i := 0) (by omega) a
  have hbyte : bs[a.toNat] < 256 := hbytes _ (List.getElem_mem _)
  rw [read_afterLoads, hlast, hget, Option.map_some, Option.getD_some, BitVec.toNat_ofNat, Nat.mod_eq_of_lt hbyte]

/-- Settles O30: both expansions are loads, and the state after loads is read byte by byte. -/
theorem pseudoLoadsLeaveTheirValues : Obligations.PseudoLoadsLeaveTheirValues := by
  refine ⟨fun s a v hpe hwf => ?half, fun s bs hpe hwf => ?frame⟩
  case half =>
    obtain ⟨ha, hv⟩ : a ≤ 30 ∧ v < 65536 := by
      simpa [AsmCommand.wellFormed, halfAddrInRange, halfInRange] using hwf
    exact ⟨_, expand_ldh a v ▸ execAll_loads _ hpe, toNat_be16_after_ldh ha hv s⟩
  case frame =>
    obtain ⟨hlen, hbytes⟩ : bs.length = 32 ∧ ∀ b ∈ bs, b < 256 := by
      simpa [AsmCommand.wellFormed, frameInRange, byteInRange] using hwf
    exact ⟨_, expand_ldf bs ▸ execAll_loads _ hpe, toNat_read_after_ldf hlen hbytes s⟩

end Sys2Proof.Machine
end
